-- ==== Sys2Proof/Word.lean ====
section
/-! DEFINITION. The widths of HMA32's values (spec/00_scope.md R4, spec/10_state.md R12). All are unsigned (R5). -/

namespace Sys2Proof

/-- The state register's width, `STATE_W` (R3, R10). -/
abbrev Word := BitVec 32

/-- One input unit, `BYTE_W` (R3). -/
abbrev Byte := BitVec 8

/-- The port `cmd_arg[63:0]`, `ARG_W`, and the output `hash_out[63:0]`, `OUT_W` (R4, R12). -/
abbrev Arg := BitVec 64

/-- The port `cmd_op[1:0]`, `OP_W` (R4, R12). -/
abbrev Op := BitVec 2

/-- The 66-bit command word `CW` with `cmd_op` above `cmd_arg` (R30). -/
abbrev CommandWord := BitVec 66

end Sys2Proof
end

