-- ==== Sys2Proof/Config.lean ====
section
/-! DEFINITION. The parameters the spec fixes (spec/00_scope.md R3) and the free values it leaves open.
The one OPEN parameter, `N_ACC`, is no constant: it is the number of instances a State holds (log entry 1). -/

namespace Sys2Proof.Config

/-- The seed, `SEED` (R3, R11). -/
def seed : Word := 0x00001505#32

/-- The multiplier `K` of the mixing step (R3, R40; spec/90_conflicts.md C1). -/
def multiplier : Nat := 65599

/-- FREE VALUE (log entry 2): the `H` of each instance between power-up and the first reset, INIT or LOAD (R92). -/
opaque powerUpH : Nat → Word

/-- FREE VALUE (log entry 4): what a `cmd_arg` wired to an instance that does not exist carries. Its arguments are
how many edges of input are left, the receiving instance and the absent one. -/
opaque undrivenArg : Nat → Nat → Nat → Arg

end Sys2Proof.Config
end

