-- ==== Sys2Proof/Syntax.lean ====
section
/-! DEFINITION. The four commands of HMA32, one constructor per row of spec/opcode_table.json
(spec/30_encoding.md R31), each with the operand the decoder takes from the command word (R32). -/

namespace Sys2Proof

/-- A decoded command (R31, R34). -/
inductive Instr where
  /-- Hold the state (R50). -/
  | nop
  /-- Load the seed (R51). -/
  | init
  /-- Load the state `s = CW[31:0]` (R52). -/
  | load (s : Word)
  /-- Mix in the byte `b = CW[7:0]` (R53). -/
  | absorb (b : Byte)
  deriving DecidableEq, Repr

end Sys2Proof
end

