-- ==== Sys2Proof/Decode.lean ====
section
/-! DEFINITION. The command encoding (spec/30_encoding.md R30 to R34, R36): the total decoder and the encoder. -/

namespace Sys2Proof

/-- The command word of the values on the two input ports (R30). -/
def commandWord (op : Op) (arg : Arg) : CommandWord := op ++ arg

/-- `CW[65:64]`, the port `cmd_op` (R30). -/
def opField (cw : CommandWord) : Op := cw.extractLsb' 64 2

/-- `CW[63:0]`, the port `cmd_arg` (R30). -/
def argField (cw : CommandWord) : Arg := cw.extractLsb' 0 64

/-- LOAD's operand `s = arg[31:0]`; the high half is discarded (R32, R33). -/
def loadOperand (arg : Arg) : Word := arg.extractLsb' 0 32

/-- ABSORB's operand `b = arg[7:0]`; the other bits are discarded (R32, R33). -/
def absorbOperand (arg : Arg) : Byte := arg.extractLsb' 0 8

/-- The opcode map (R31). -/
def opNop : Op := 0b00#2
def opInit : Op := 0b01#2
def opLoad : Op := 0b10#2
def opAbsorb : Op := 0b11#2

/-- The decoder: total, every word is one of the four commands (R34). The last case is opcode `11`, the only one left. -/
def decode (cw : CommandWord) : Instr :=
  if opField cw = opNop then .nop
  else if opField cw = opInit then .init
  else if opField cw = opLoad then .load (loadOperand (argField cw))
  else .absorb (absorbOperand (argField cw))

/-- The canonical command word of a command: zero in every ignored bit (R36). -/
def encode : Instr → CommandWord
  | .nop => commandWord opNop 0
  | .init => commandWord opInit 0
  | .load s => commandWord opLoad (s.setWidth 64)
  | .absorb b => commandWord opAbsorb (b.setWidth 64)

/-- The command word held in the low `nbits` bits of a number. The ports have 66 wires, so a number's bits from 66 up,
which only fill the table's row to whole bytes, reach none (log entry 9). -/
def tableWord (nbits w : Nat) : CommandWord := BitVec.ofNat 66 (w % 2 ^ nbits)

/-- The command the decoder reads from a row's word, bit 0 the least significant bit of `cmd_arg` (R30, R34). -/
def decodeTableWord (nbits w : Nat) : Option Instr := some (decode (tableWord nbits w))

end Sys2Proof
end

