-- ==== Sys2Proof/Machine/Inputs.lean ====
section
/-! DEFINITION. What the host drives on the input ports at one rising edge (spec/10_state.md R12, spec/70_reset_and_hazards.md R98). -/

namespace Sys2Proof.Machine

/-- What drives `cmd_arg` at an edge: a number, or the wire from `hash_out` of an instance
(spec/42_output_and_duplication.md R63, which names the wire for a LOAD; that any opcode may stand beside it is the MODEL's
choice, log entry 14). -/
inductive ArgSource where
  | value (v : Arg)
  | wired (i : Nat)
  deriving DecidableEq, Repr

/-- The values on one instance's input ports at one rising edge (R12). -/
structure PortIn where
  rst : Bool
  op : Op
  arg : ArgSource
  deriving DecidableEq, Repr

/-- What an instance's ports carry at an edge for which the host gives it nothing: a NOP
(spec/41_commands.md R50, spec/30_encoding.md R31; log entry 6). -/
def PortIn.idle : PortIn := { rst := false, op := opNop, arg := .value 0 }

/-- One rising edge of the common clock (spec/20_memory.md R26): entry `j` is what instance `j`'s ports carry.
An instance without an entry is idle. -/
abbrev Edge := List PortIn

end Sys2Proof.Machine
end

