-- ==== Sys2Proof/Machine/State.lean ====
section
/-! DEFINITION. The state of a system of HMA32 instances (spec/10_state.md R10, R17; spec/60_exceptions.md R87),
the outcomes other than a next state, and reset. -/

namespace Sys2Proof.Machine

/-- `h` and `others` are the whole hardware state: one 32-bit register `H` per instance (R10). -/
structure State where
  /-- `H` of instance 0, the instance `exec` runs a command on. -/
  h : Word
  /-- `H` of instances 1, 2, ...; `N_ACC = 1 + others.length` (R4). -/
  others : List Word
  /-- The MODEL's own field, no state of the hardware: the host's edges still to come, the next first (R13; log entry 3). -/
  inputs : List Edge
  deriving DecidableEq, Repr

/-- The hardware raises no exception and has no error condition (R80), so no fault exists. -/
inductive Fault where
  deriving DecidableEq, Repr

/-- The hardware refuses nothing (R34, R94). -/
inductive Refusal where
  /-- The host interface's name for a command without a meaning. No arm of `exec` raises it: all four commands are
  modelled. Safe. -/
  | notModelled (mnemonic : String)
  deriving DecidableEq, Repr

/-- `n + 1` instances right after a reset edge (R11, R90), with no input to come. -/
def State.resetOf (n : Nat) : State :=
  { h := Config.seed, others := List.replicate n Config.seed, inputs := [] }

/-- The machine right after reset (R11, R90), with one instance (log entry 1). -/
def State.reset : State := State.resetOf 0

/-- `n + 1` instances at power-up, before any reset, INIT or LOAD: every `H` is a free value (R92; log entry 2). -/
def State.powerUp (n : Nat) : State :=
  { h := Config.powerUpH 0, others := (List.range n).map (fun j => Config.powerUpH (j + 1)), inputs := [] }

end Sys2Proof.Machine
end

