-- ==== Sys2Proof/Machine/Ops.lean ====
section
/-! DEFINITION. The named operations over the registers: the mixing datapath (spec/40_mixing_datapath.md), the write of
`H`, reset (spec/70_reset_and_hazards.md R90) and the output port (spec/42_output_and_duplication.md R60). The hardware
takes no exception (spec/60_exceptions.md R83), so reset is the only event beside the commands. -/

namespace Sys2Proof.Machine

/-- The mixing function: exact in the integers, reduced modulo 2^32 once; the byte is unsigned (R40, R43, R44; log entry 7). -/
def mix (r : Word) (b : Byte) : Word := BitVec.ofNat 32 (Config.multiplier * r.toNat + b.toNat)

/-- `H <- v`, the write of the whole register (R6, R10). -/
def State.writeH (s : State) (v : Word) : State := { s with h := v }

/-- What an edge with `rst = 1` does to an instance (R90). -/
def State.takeReset (s : State) : State := s.writeH Config.seed

/-- Every instance's `H`, instance `j` at place `j` (R10, R87). -/
def State.accs (s : State) : List Word := s.h :: s.others

/-- `N_ACC` (R4). -/
def State.instances (s : State) : Nat := s.accs.length

/-- Instance `j`'s `H`, where instance `j` exists. -/
def State.hAt (s : State) (j : Nat) : Option Word := s.accs[j]?

/-- `hash_out = zext_64(H)` (R60). -/
def hashOutOf (r : Word) : Arg := r.setWidth 64

/-- Instance `j`'s output port; a function of `H` alone, so reading it changes nothing (R60, R61). -/
def State.hashOut (s : State) (j : Nat) : Option Arg := (s.hAt j).map hashOutOf

end Sys2Proof.Machine
end

