-- ==== Sys2Proof/Machine/Commands.lean ====
section
/-! DEFINITION. The meanings of the four commands (spec/41_commands.md), on the instance whose register is `State.h`.
None writes a flag (R14), none stops (R54, R80). -/

namespace Sys2Proof.Machine

/-- NOP: `H <- H` (R50). -/
def execNop (s : State) : Host.Outcome State Fault Refusal := .next s

/-- INIT: `H <- 0x00001505` (R51). -/
def execInit (s : State) : Host.Outcome State Fault Refusal := .next (s.writeH Config.seed)

/-- LOAD: `H <- cmd_arg[31:0]`, the operand the decoder truncated (R52). -/
def execLoad (v : Word) (s : State) : Host.Outcome State Fault Refusal := .next (s.writeH v)

/-- ABSORB: `H <- mix(H, b)`, from the old `H` (R53). -/
def execAbsorb (b : Byte) (s : State) : Host.Outcome State Fault Refusal := .next (s.writeH (mix s.h b))

end Sys2Proof.Machine
end

