-- ==== Sys2Proof/Machine/Dispatch.lean ====
section
/-! DEFINITION. One arm per command (spec/41_commands.md R54, the lines after `rst`). -/

namespace Sys2Proof.Machine

def exec (i : Instr) (s : State) : Host.Outcome State Fault Refusal :=
  match i with
  | .nop => Sys2Proof.Machine.execNop s
  | .init => Sys2Proof.Machine.execInit s
  | .load v => Sys2Proof.Machine.execLoad v s
  | .absorb b => Sys2Proof.Machine.execAbsorb b s

end Sys2Proof.Machine
end

