-- ==== Sys2Proof/Machine/Operands.lean ====
section
/-! DEFINITION. The values each instance samples from its input ports at the coming edge
(spec/10_state.md R12, spec/20_memory.md R26, spec/42_output_and_duplication.md R63). All are read from the state before the
edge. -/

namespace Sys2Proof.Machine

/-- The value on instance `j`'s `cmd_arg`: the host's number, or the pre-edge `hash_out` of the instance it is wired to (R63).
A wire from an instance that does not exist reads a free value (log entry 4). The MODEL's choice: the wire is read alike under
every opcode, where the spec names it for a LOAD only (log entry 14). -/
def State.sampleArg (s : State) (j : Nat) : ArgSource → Arg
  | .value v => v
  | .wired i => (s.hashOut i).getD (Config.undrivenArg s.inputs.length j i)

/-- What the host drives at the coming edge; nothing when it has no more to give (R98; log entry 6). -/
def State.nextEdge (s : State) : Edge := s.inputs.headD []

/-- What the host drives on instance `j`'s ports at the coming edge. -/
def State.portIn (s : State) (j : Nat) : PortIn := s.nextEdge.getD j .idle

/-- The values one instance samples: `rst` and the command word (R12, R30). -/
structure Sample where
  rst : Bool
  cw : CommandWord
  deriving DecidableEq, Repr

/-- The values instance `j` samples at the coming edge. -/
def State.sample (s : State) (j : Nat) : Sample :=
  { rst := (s.portIn j).rst, cw := commandWord (s.portIn j).op (s.sampleArg j (s.portIn j).arg) }

end Sys2Proof.Machine
end

