-- ==== Sys2Proof/Machine/Edge.lean ====
section
/-! DEFINITION. One rising edge of the common clock: what one instance does with the values it sampled
(spec/41_commands.md R54) and what all of them do together (spec/20_memory.md R26). -/

namespace Sys2Proof.Machine

/-- One instance at one edge: reset wins over the command, which is then not executed (R54, R82, R90). -/
def runSample (x : Sample) (s : State) : Host.Outcome State Fault Refusal :=
  if x.rst then .next s.takeReset else exec (decode x.cw) s

/-- The block of another instance, seen as the block `exec` runs on: only its own `H` (R17, R26). -/
def State.soleInstance (r : Word) : State := { h := r, others := [], inputs := [] }

/-- The instances after instance 0 at one edge, instance `j` first: each runs its own sample on its own register (R26). -/
def runOthers (pre : State) : Nat → List Word → Host.Outcome (List Word) Fault Refusal
  | _, [] => .next []
  | j, r :: rs =>
    match runSample (pre.sample j) (State.soleInstance r) with
    | .next t =>
      match runOthers pre (j + 1) rs with
      | .next ts => .next (t.h :: ts)
      | .fault e => .fault e
      | .refused e => .refused e
    | .fault e => .fault e
    | .refused e => .refused e

/-- The whole system at one edge. Every instance samples its ports from the state before the edge, the edge is used up,
instance 0 runs its sample and every other instance runs its own (R25, R26, R63). -/
def runEdge (s : State) : Host.Outcome State Fault Refusal :=
  match runSample (s.sample 0) { s with inputs := s.inputs.tail } with
  | .next t =>
    match runOthers s 1 s.others with
    | .next os => .next { t with others := os }
    | .fault e => .fault e
    | .refused e => .refused e
  | .fault e => .fault e
  | .refused e => .refused e

/-- The edge at which instance 0's ports carry a command word and every other instance is idle. -/
def edgeOfWord (cw : CommandWord) : Edge := [{ rst := false, op := opField cw, arg := .value (argField cw) }]

/-- The host presents one more edge, before all it had to give. -/
def State.present (s : State) (e : Edge) : State := { s with inputs := e :: s.inputs }

end Sys2Proof.Machine
end

