-- ==== Sys2Proof/Machine/Step.lean ====
section
/-! DEFINITION. The step of the machine: one rising edge (spec/41_commands.md R54, spec/20_memory.md R25, R26). -/

namespace Sys2Proof.Machine

def step (s : State) : Host.Outcome State Fault Refusal := runEdge s

/-- The host presents the command word `w` to instance 0 at the very next edge, with `rst = 0` (log entry 8). -/
def State.withFetchWord (s : State) (nbits w : Nat) : State := s.present (edgeOfWord (tableWord nbits w))

end Sys2Proof.Machine
end

