-- ==== Sys2Proof/Machine/Sequences.lean ====
section
/-! DEFINITION. The fold over a byte sequence (spec/43_sequences.md R70) and the pseudo-instructions as what the host drives
(spec/30_encoding.md R37, spec/42_output_and_duplication.md R63, spec/43_sequences.md R71 to R73). -/

namespace Sys2Proof.Machine

/-- `absorb_seq`, the source's `hash_more`: the bytes mixed in, left to right (R70). -/
def absorbSeq : Word → List Byte → Word
  | r, [] => r
  | r, b :: bs => absorbSeq (mix r b) bs

/-- `hash(data)` (R73). -/
def hashOf (data : List Byte) : Word := absorbSeq Config.seed data

/-- What an instance's ports carry for a command, its word in canonical form (R36). -/
def PortIn.command (i : Instr) : PortIn :=
  { rst := false, op := opField (encode i), arg := .value (argField (encode i)) }

/-- `RESET`: `rst = 1`, whatever the command word (R37, R90). -/
def PortIn.reset : PortIn := { rst := true, op := opNop, arg := .value 0 }

/-- `LOAD imm64`: the assembler keeps all 64 bits, the hardware discards the high half (R36, R52). -/
def PortIn.load (imm : Arg) : PortIn := { rst := false, op := opLoad, arg := .value imm }

/-- The receiving half of `CLONE @i -> @j`: LOAD with `cmd_arg` wired to instance `i`'s `hash_out` (R37, R63). -/
def PortIn.cloneFrom (i : Nat) : PortIn := { rst := false, op := opLoad, arg := .wired i }

/-- The commands and pseudo-instructions a host can give one instance (R36, R37). -/
inductive HostAction where
  | nop
  | init
  | load (imm : Arg)
  | absorb (imm : Byte)
  | reset
  | write (data : List Byte)
  | hash (data : List Byte)
  | hashMore (start : Arg) (data : List Byte)
  | finish
  | cloneFrom (i : Nat)
  deriving DecidableEq, Repr

/-- What the action drives on the instance's ports, one entry an edge (R36, R37, R71 to R73, R99). FINISH takes no edge. -/
def HostAction.expand : HostAction → List PortIn
  | .nop => [.command .nop]
  | .init => [.command .init]
  | .load imm => [.load imm]
  | .absorb imm => [.command (.absorb imm)]
  | .reset => [.reset]
  | .write data => data.map (fun b => .command (.absorb b))
  | .hash data => .command .init :: data.map (fun b => .command (.absorb b))
  | .hashMore start data => .load start :: data.map (fun b => .command (.absorb b))
  | .finish => []
  | .cloneFrom i => [.cloneFrom i]

/-- The edge at which only instance `j` is given something (R36, `@j:`). -/
def edgeFor (j : Nat) (p : PortIn) : Edge := List.replicate j .idle ++ [p]

/-- The edges of an action on instance `j`, every other instance idle. -/
def HostAction.edges (j : Nat) (a : HostAction) : List Edge := a.expand.map (edgeFor j)

/-- Lines on different instances sampled at the same edge (R36, `||`). -/
def edgeOfAll (ps : List (Nat × PortIn)) : Edge :=
  (List.range (ps.foldl (fun n p => max n (p.1 + 1)) 0)).map (fun j => (ps.lookup j).getD .idle)

end Sys2Proof.Machine
end

