-- ==== Sys2Proof/Machine/Assembler.lean ====
section
/-! DEFINITION. The assembler text the spec defines (spec/30_encoding.md R36, R37), read into what the host drives.
Log entry 10 names the conventions the spec leaves open. Text is a list of characters, so that the kernel can evaluate it. -/

namespace Sys2Proof.Machine

/-- The tokens of a text. -/
inductive Tok where
  /-- A mnemonic, a name or a number. -/
  | word (cs : List Char)
  /-- A character literal's ASCII code (R36). -/
  | code (b : Byte)
  /-- A quoted text's bytes (R37). -/
  | text (bs : List Byte)
  | atSign
  | colon
  | comma
  | arrow
  | bars
  | lineEnd
  deriving DecidableEq, Repr

/-- What the token reader is inside of. -/
inductive LexMode where
  | between
  | inWord (reversed : List Char)
  | inText (reversed : List Byte)
  | codeOpen
  | codeHeld (b : Byte)
  | oneBar
  | oneDash
  deriving DecidableEq, Repr

/-- The tokens read so far, the last one first, and what the reader is inside of. -/
structure Lexer where
  reversed : List Tok
  mode : LexMode
  deriving DecidableEq, Repr

/-- The UTF-8 bytes of a character (R37: "its bytes in ASCII/UTF-8 order"). -/
def utf8Bytes (c : Char) : List Byte :=
  let n := c.toNat
  let tail (shift : Nat) : Byte := BitVec.ofNat 8 (128 + n / 2 ^ shift % 64)
  if n < 0x80 then [BitVec.ofNat 8 n]
  else if n < 0x800 then [BitVec.ofNat 8 (192 + n / 2 ^ 6), tail 0]
  else if n < 0x10000 then [BitVec.ofNat 8 (224 + n / 2 ^ 12), tail 6, tail 0]
  else [BitVec.ofNat 8 (240 + n / 2 ^ 18), tail 12, tail 6, tail 0]

/-- A character outside words, texts and character literals. -/
def lexFresh (toks : List Tok) (c : Char) : Option Lexer :=
  if c.isAlphanum || c = '_' then some ⟨toks, .inWord [c]⟩
  else if c = ' ' || c = '\t' || c = '\r' then some ⟨toks, .between⟩
  else if c = '\n' || c = ';' then some ⟨.lineEnd :: toks, .between⟩
  else if c = '@' then some ⟨.atSign :: toks, .between⟩
  else if c = ':' then some ⟨.colon :: toks, .between⟩
  else if c = ',' then some ⟨.comma :: toks, .between⟩
  else if c = '|' then some ⟨toks, .oneBar⟩
  else if c = '-' then some ⟨toks, .oneDash⟩
  else if c.toNat = 34 then some ⟨toks, .inText []⟩
  else if c.toNat = 39 then some ⟨toks, .codeOpen⟩
  else none

/-- One character. Character 34 closes a quoted text, character 39 a character literal. The MODEL's choice (log entry 10): R36
shows only `'a'`, and a character literal here holds any one character of code 0 to 127 but a line break ("one command per
line"), itself without escapes, so that the apostrophe is written between two others; another character makes no program. -/
def lexChar (l : Lexer) (c : Char) : Option Lexer :=
  match l.mode with
  | .between => lexFresh l.reversed c
  | .inWord cs =>
    if c.isAlphanum || c = '_' then some ⟨l.reversed, .inWord (c :: cs)⟩
    else lexFresh (.word cs.reverse :: l.reversed) c
  | .inText bs =>
    if c.toNat = 34 then some ⟨.text bs.reverse :: l.reversed, .between⟩
    else if c = '\n' then none
    else some ⟨l.reversed, .inText ((utf8Bytes c).reverse ++ bs)⟩
  | .codeOpen => if c.toNat < 128 && c != '\n' then some ⟨l.reversed, .codeHeld (BitVec.ofNat 8 c.toNat)⟩ else none
  | .codeHeld b => if c.toNat = 39 then some ⟨.code b :: l.reversed, .between⟩ else none
  | .oneBar => if c = '|' then some ⟨.bars :: l.reversed, .between⟩ else none
  | .oneDash => if c = '>' then some ⟨.arrow :: l.reversed, .between⟩ else none

/-- The tokens of a text, or none where a character fits nowhere. A line end closes the last line. -/
def lex (cs : List Char) : Option (List Tok) :=
  match (cs ++ ['\n']).foldlM lexChar ⟨[], .between⟩ with
  | some ⟨toks, .between⟩ => some toks.reverse
  | _ => none

/-- The pieces of a list between separators. -/
def splitAtTok (sep : Tok) : List Tok → List (List Tok)
  | [] => [[]]
  | t :: ts =>
    match splitAtTok sep ts with
    | [] => [[t]]
    | piece :: pieces => if t = sep then [] :: piece :: pieces else (t :: piece) :: pieces

/-- The sixteen digits in the order of their values, each with the characters that write it. -/
def digitSpellings : List (List Char) :=
  [['0'], ['1'], ['2'], ['3'], ['4'], ['5'], ['6'], ['7'], ['8'], ['9'],
   ['a', 'A'], ['b', 'B'], ['c', 'C'], ['d', 'D'], ['e', 'E'], ['f', 'F']]

/-- The number a row of digits writes in a base up to sixteen, read on from the value of the digits before it; none where a
character is no digit of the base. -/
def readDigits (base : Nat) : Nat → List Char → Option Nat
  | before, [] => some before
  | before, c :: cs =>
    match (digitSpellings.take base).findIdx? (·.contains c) with
    | some d => readDigits base (base * before + d) cs
    | none => none

/-- A number, decimal or `0x` hexadecimal (R36). -/
def numberOf : List Char → Option Nat
  | [] => none
  | '0' :: 'x' :: [] => none
  | '0' :: 'x' :: ds => readDigits 16 0 ds
  | ds => readDigits 10 0 ds

/-- `imm64`, any unsigned 64-bit number (R36). The MODEL's choice: an operand is a literal number, and the name a FINISH gave a
value is none, since R36 and R37 do not say that it may stand there (log entry 15). -/
def imm64Of : Tok → Option Arg
  | .word cs => (numberOf cs).bind fun n => if n < 2 ^ 64 then some (BitVec.ofNat 64 n) else none
  | _ => none

/-- `imm8`, 0 to 255 or a character literal (R36). -/
def imm8Of : Tok → Option Byte
  | .word cs => (numberOf cs).bind fun n => if n < 256 then some (BitVec.ofNat 8 n) else none
  | .code b => some b
  | _ => none

/-- A number that names an instance, decimal or `0x` hexadecimal like every number (R36, `@i`). -/
def indexOf : Tok → Option Nat
  | .word cs => numberOf cs
  | _ => none

/-- The bytes `b0, b1, ..., bn-1` (R37). -/
def bytesList : List Tok → Option (List Byte)
  | [] => none
  | [t] => (imm8Of t).map fun b => [b]
  | t :: .comma :: ts => (imm8Of t).bind fun b => (bytesList ts).map fun bs => b :: bs
  | _ => none

/-- The data of `WRITE`, `HASH` and `HASHMORE`: a quoted text or a list of bytes (R37; log entry 10). -/
def dataOf : List Tok → Option (List Byte)
  | [.text bs] => some bs
  | ts => bytesList ts

/-- What a line asks of the host for one instance: an action, or a read of `hash_out` under a name (R37, FINISH). -/
inductive LineAction where
  | act (a : HostAction)
  | read (name : List Char)
  deriving DecidableEq, Repr

/-- A command or pseudo-instruction without its `@i:` (R36, R37). -/
def actionOf : List Tok → Option LineAction
  | .word m :: ops =>
    if m = ['N', 'O', 'P'] then if ops = [] then some (.act .nop) else none
    else if m = ['I', 'N', 'I', 'T'] then if ops = [] then some (.act .init) else none
    else if m = ['R', 'E', 'S', 'E', 'T'] then if ops = [] then some (.act .reset) else none
    else if m = ['L', 'O', 'A', 'D'] then
      match ops with
      | [t] => (imm64Of t).map fun v => .act (.load v)
      | _ => none
    else if m = ['A', 'B', 'S', 'O', 'R', 'B'] then
      match ops with
      | [t] => (imm8Of t).map fun b => .act (.absorb b)
      | _ => none
    else if m = ['W', 'R', 'I', 'T', 'E'] then (dataOf ops).map fun bs => .act (.write bs)
    else if m = ['H', 'A', 'S', 'H'] then (dataOf ops).map fun bs => .act (.hash bs)
    else if m = ['H', 'A', 'S', 'H', 'M', 'O', 'R', 'E'] then
      match ops with
      | t :: .comma :: ts => (imm64Of t).bind fun v => (dataOf ts).map fun bs => .act (.hashMore v bs)
      | _ => none
    else if m = ['F', 'I', 'N', 'I', 'S', 'H'] then
      match ops with
      | [.arrow, .word name] => some (.read name)
      | _ => none
    else none
  | _ => none

/-- One piece of a line: the instance it is for and what it asks. The MODEL's choices (log entry 10): without `@i:` the piece is
instance 0's, and a CLONE, which names its own instances, takes no `@i:`, so that `@1: CLONE @0 -> @1` makes no program. -/
def pieceOf : List Tok → Option (Nat × LineAction)
  | [.word m, .atSign, i, .arrow, .atSign, j] =>
    if m = ['C', 'L', 'O', 'N', 'E'] then
      (indexOf i).bind fun i => (indexOf j).map fun j => (j, .act (.cloneFrom i))
    else none
  | .atSign :: i :: .colon :: ts => (indexOf i).bind fun i => (actionOf ts).map fun a => (i, a)
  | ts => (actionOf ts).map fun a => (0, a)

/-- What the host does, in order: drive an edge, or sample an instance's `hash_out` under a name. -/
inductive HostStep where
  | edge (e : Edge)
  | read (j : Nat) (name : List Char)
  deriving DecidableEq, Repr

/-- The port values of a piece that takes exactly one edge. -/
def oneEdge : Nat × LineAction → Option (Nat × PortIn)
  | (j, .act a) =>
    match a.expand with
    | [p] => some (j, p)
    | _ => none
  | (_, .read _) => none

/-- A line. One piece may take any number of edges; pieces joined by `||` are for different instances and take one edge
each, the same one (R36). -/
def stepsOfPieces : List (Nat × LineAction) → Option (List HostStep)
  | [(j, .act a)] => some ((a.edges j).map .edge)
  | [(j, .read name)] => some [.read j name]
  | ps =>
    if (ps.map (·.1)).Nodup then (ps.mapM oneEdge).map fun qs => [.edge (edgeOfAll qs)] else none

/-- A line of tokens; an empty line asks nothing. -/
def stepsOfLine (ts : List Tok) : Option (List HostStep) :=
  if ts = [] then some [] else ((splitAtTok .bars ts).mapM pieceOf).bind stepsOfPieces

/-- The assembler: a text to what the host does, lines top to bottom (R36, R37). -/
def assemble (cs : List Char) : Option (List HostStep) :=
  (lex cs).bind fun ts => ((splitAtTok .lineEnd ts).mapM stepsOfLine).map List.flatten

/-- The edges a host's list of steps drives. -/
def edgesOf (p : List HostStep) : List Edge :=
  p.filterMap fun
    | .edge e => some e
    | .read _ _ => none

end Sys2Proof.Machine
end

