-- ==== Sys2Proof/Machine/HostRun.lean ====
section
/-! DEFINITION. A host that carries out an assembled program: it drives its edges one by one and samples `hash_out` where the
program says FINISH (spec/30_encoding.md R37, spec/70_reset_and_hazards.md R98). -/

namespace Sys2Proof.Machine

/-- The state after the program's edges and the values sampled, in order, each with its name. A read takes no edge and
changes nothing (R61). An instance that does not exist has no output to sample, and its read is none. -/
def hostRun : List HostStep → State → Host.Outcome (State × List (List Char × Option Arg)) Fault Refusal
  | [], s => .next (s, [])
  | .read j name :: p, s =>
    match hostRun p s with
    | .next (t, reads) => .next (t, (name, s.hashOut j) :: reads)
    | .fault e => .fault e
    | .refused e => .refused e
  | .edge e :: p, s =>
    match step (s.present e) with
    | .next t => hostRun p t
    | .fault r => .fault r
    | .refused r => .refused r

end Sys2Proof.Machine
end

