-- ==== Sys2Proof/WellFormed.lean ====
section
/-! DEFINITION. Well-formedness of commands and of what the host drives. Every command is well formed
(spec/30_encoding.md R34: none is illegal or reserved). What the host drives is well formed for `n` instances when it
drives only ports that exist and wires only from instances that exist (log entry 4). -/

namespace Sys2Proof

/-- Every command is legal for every value of its operand (R34). -/
def Instr.wf : Instr → Bool
  | .nop => true
  | .init => true
  | .load _ => true
  | .absorb _ => true

namespace Machine

/-- The source of `cmd_arg` exists in a system of `n` instances (R63), whatever the opcode (log entry 14). -/
def ArgSource.wf (n : Nat) : ArgSource → Bool
  | .value _ => true
  | .wired i => decide (i < n)

/-- An edge drives at most the `n` instances' ports, each from a source that exists. -/
def Edge.wf (n : Nat) (e : Edge) : Bool :=
  decide (e.length ≤ n) && e.all (fun p => p.arg.wf n)

end Machine
end Sys2Proof
end

