-- ==== Sys2Proof/Safety.lean ====
section
/-! DEFINITION. The terms claims use: runs and their observation (spec/42_output_and_duplication.md R62), the invariant of a
system whose host drives only what exists, the spec's step function (spec/41_commands.md R54), and what a column of inputs
feeds to one instance (spec/43_sequences.md R77). -/

namespace Sys2Proof.Machine

/-- `k` rising edges (R25: the left fold of the step). -/
def runEdges : Nat → State → Host.Outcome State Fault Refusal
  | 0, s => .next s
  | k + 1, s =>
    match step s with
    | .next t => runEdges k t
    | .fault e => .fault e
    | .refused e => .refused e

/-- Every instance's `hash_out` in a cycle. -/
def State.outputs (s : State) : List Arg := s.accs.map hashOutOf

/-- The observation of a run of `k` edges: the outputs of the first cycle and of the cycle after each edge (R62). -/
def observe : Nat → State → List (List Arg)
  | 0, s => [s.outputs]
  | k + 1, s =>
    match step s with
    | .next t => s.outputs :: observe k t
    | .fault _ => [s.outputs]
    | .refused _ => [s.outputs]

/-- The host gives this list of edges, and nothing after it (R13, R62). -/
def State.given (s : State) (es : List Edge) : State := { s with inputs := es }

/-- A system of `n` instances (never none: R4), each edge of whose host drives only ports and wires that exist
(log entry 4). -/
def State.Inv (n : Nat) (s : State) : Prop := s.instances = n ∧ ∀ e ∈ s.inputs, Edge.wf n e = true

/-- The spec's step function for one instance, in its own case order and over the integers (R54). -/
def specStep (rst : Bool) (op : Op) (arg : Arg) (r : Word) : Nat :=
  if rst then 5381
  else if op.toNat = 0 then r.toNat
  else if op.toNat = 1 then 5381
  else if op.toNat = 2 then arg.toNat % 2 ^ 32
  else (65599 * r.toNat + arg.toNat % 2 ^ 8) % 2 ^ 32

/-- What the edges drive on instance `j`'s ports, one entry an edge. -/
def column (j : Nat) (es : List Edge) : List PortIn := es.map (fun e => e.getD j .idle)

/-- The ports carry a NOP or an ABSORB of a byte the host gives. -/
def PortIn.streams (p : PortIn) : Bool :=
  !p.rst && (p.op == opNop || (p.op == opAbsorb && match p.arg with | .value _ => true | .wired _ => false))

/-- The byte an ABSORB of a column takes, none for any other entry. -/
def PortIn.byte? (p : PortIn) : Option Byte :=
  match p.arg with
  | .value v => if p.op == opAbsorb then some (absorbOperand v) else none
  | .wired _ => none

/-- The bytes a column of NOPs and ABSORBs feeds to its instance, in edge order (R77). -/
def bytesOf (ps : List PortIn) : List Byte := ps.filterMap PortIn.byte?

/-- The value an entry overwrites `H` with, where it is a reset, an INIT or a LOAD of a value (R77). -/
def PortIn.overwrites? (p : PortIn) : Option Word :=
  if p.rst then some Config.seed
  else if p.op == opInit then some Config.seed
  else if p.op == opLoad then
    match p.arg with
    | .value v => some (loadOperand v)
    | .wired _ => none
  else none

/-- The values instance `j` samples at each of the next `k` edges, numbers and wires alike. -/
def sampled (j : Nat) : Nat → State → List Sample
  | 0, _ => []
  | k + 1, s =>
    s.sample j ::
      match step s with
      | .next t => sampled j k t
      | .fault _ => []
      | .refused _ => []

/-- The sampled values are those of a NOP or an ABSORB. -/
def Sample.streams (x : Sample) : Bool :=
  !x.rst &&
    match decode x.cw with
    | .nop => true
    | .absorb _ => true
    | .init => false
    | .load _ => false

/-- The byte a sampled ABSORB takes, none for anything else. -/
def Sample.byte? (x : Sample) : Option Byte :=
  if x.rst then none
  else
    match decode x.cw with
    | .absorb b => some b
    | .nop => none
    | .init => none
    | .load _ => none

/-- The bytes a run of samples feeds to its instance, in edge order (R77). -/
def bytesSampled (xs : List Sample) : List Byte := xs.filterMap Sample.byte?

/-- The value sampled values overwrite `H` with: those of a reset, an INIT, or a LOAD of a number or from a wire (R77). -/
def Sample.overwrites? (x : Sample) : Option Word :=
  if x.rst then some Config.seed
  else
    match decode x.cw with
    | .init => some Config.seed
    | .load v => some v
    | .nop => none
    | .absorb _ => none

/-- The bytes' part of the closed form: the last byte has weight 1, the byte before it `K`, and so on (R76). -/
def weightedBytes : List Byte → Nat
  | [] => 0
  | b :: bs => b.toNat * 65599 ^ bs.length + weightedBytes bs

/-- The inverse of `mix` for a fixed byte, with `K^-1` modulo 2^32 (spec/40_mixing_datapath.md R45). -/
def unmix (r : Word) (b : Byte) : Word := (r - b.setWidth 32) * 0x8E7AEFBF#32

end Sys2Proof.Machine
end

