-- ==== Sys2Proof/Certificates/Slice0/Obligations.lean ====
section
/-! DEFINITION. The statements for the provers. Each docstring names the rule of spec/ it formalises. -/

section
open Sys2Proof Sys2Proof.Machine

/-! ### The encoding -/

/-- Words written out from R31 and R32, junk in the ignored bits (95_test_vectors.md N2, I4, L5, A5). -/
def Obligations.DecodesOneWordOfEachOpcode : Prop :=
  decode 0x0DEADBEEF00000061#66 = .nop ∧
  decode 0x1FFFFFFFFFFFFFFFF#66 = .init ∧
  decode 0x2DEADBEEF28E34AA1#66 = .load 0x28E34AA1#32 ∧
  decode 0x3FFFFFFFFFFFFFF61#66 = .absorb 0x61#8

/-- Decoding the word of a command gives it back with its operand whole, and that word is the canonical one of R36:
the opcode above a 64-bit argument that is zero in every ignored bit. -/
def Obligations.DecodeOfEncodeIsTheCommand : Prop :=
  ∀ i : Instr, decode (encode i) = i ∧
    (encode i).toNat =
      match i with
      | .nop => 0
      | .init => 2 ^ 64
      | .load s => 2 * 2 ^ 64 + s.toNat
      | .absorb b => 3 * 2 ^ 64 + b.toNat

/-- R34: every one of the 2^66 words decodes to exactly one command, by the rule's own decoder, and that command is
defined for every value of its operand and of `H`. -/
def Obligations.EveryCommandWordDecodesByItsOpcode : Prop :=
  ∀ cw : CommandWord,
    decode cw =
      (if cw.toNat / 2 ^ 64 = 0 then .nop
       else if cw.toNat / 2 ^ 64 = 1 then .init
       else if cw.toNat / 2 ^ 64 = 2 then .load (BitVec.ofNat 32 (cw.toNat % 2 ^ 32))
       else .absorb (BitVec.ofNat 8 (cw.toNat % 2 ^ 8))) ∧
    ∀ s : State, ∃ t, exec (decode cw) s = .next t

/-- R33: two words are the same command exactly when they agree on the bits that command uses. -/
def Obligations.IgnoredBitsNeverMatter : Prop :=
  ∀ cw cw' : CommandWord,
    decode cw = decode cw' ↔
      cw.toNat / 2 ^ 64 = cw'.toNat / 2 ^ 64 ∧
      (cw.toNat / 2 ^ 64 = 2 → cw.toNat % 2 ^ 32 = cw'.toNat % 2 ^ 32) ∧
      (cw.toNat / 2 ^ 64 = 3 → cw.toNat % 2 ^ 8 = cw'.toNat % 2 ^ 8)

/-- What each of the four command actions drives on its instance's ports, and the command word those port values make: that of
R36's table, the opcode above the 64-bit argument. LOAD keeps all 64 bits of `imm64` in the word. -/
def Obligations.CommandActionsDriveTheTablesWords : Prop :=
  (∀ imm : Arg, HostAction.expand (.load imm) = [{ rst := false, op := 0b10#2, arg := .value imm }] ∧
    (commandWord 0b10#2 imm).toNat = 2 * 2 ^ 64 + imm.toNat) ∧
  (∀ imm : Byte, HostAction.expand (.absorb imm) =
      [{ rst := false, op := 0b11#2, arg := .value (BitVec.ofNat 64 imm.toNat) }] ∧
    (commandWord 0b11#2 (BitVec.ofNat 64 imm.toNat)).toNat = 3 * 2 ^ 64 + imm.toNat) ∧
  (HostAction.expand .nop = [{ rst := false, op := 0b00#2, arg := .value 0 }] ∧ (commandWord 0b00#2 0).toNat = 0) ∧
  (HostAction.expand .init = [{ rst := false, op := 0b01#2, arg := .value 0 }] ∧ (commandWord 0b01#2 0).toNat = 2 ^ 64)

/-- The assembler reads the four command lines of R36 as their actions. With `@i:` in front the line is instance `i`'s; without it,
instance 0's, which is the model's choice (log entry 10). The line is the one edge at which that instance's ports carry the action
and every other instance is idle (the last is log entry 6, DEDUCED). An operand is any number in its range, one out of its range
makes no program (log entry 10), and a character literal is its ASCII code. The last clause is R36's "Numbers are decimal or `0x`
hexadecimal" over all texts: which ones are numbers, and which number each is, the first digit being the highest; that a
hexadecimal digit is read in either case is log entry 10. -/
def Obligations.CommandLinesAreReadAsTheirActions : Prop :=
  (∀ (address : List Tok) (j : Nat),
    (address = [] ∧ j = 0) ∨ (∃ index, numberOf index = some j ∧ address = [.atSign, .word index, .colon]) →
    stepsOfLine (address ++ [.word "NOP".toList]) = some [.edge (edgeFor j (.command .nop))] ∧
    stepsOfLine (address ++ [.word "INIT".toList]) = some [.edge (edgeFor j (.command .init))] ∧
    (∀ number n, numberOf number = some n →
      stepsOfLine (address ++ [.word "LOAD".toList, .word number]) =
        if n < 2 ^ 64 then some [.edge (edgeFor j (.load (BitVec.ofNat 64 n)))] else none) ∧
    (∀ number n, numberOf number = some n →
      stepsOfLine (address ++ [.word "ABSORB".toList, .word number]) =
        if n < 256 then some [.edge (edgeFor j (.command (.absorb (BitVec.ofNat 8 n))))] else none) ∧
    ∀ b : Byte, stepsOfLine (address ++ [.word "ABSORB".toList, .code b]) =
      some [.edge (edgeFor j (.command (.absorb b)))]) ∧
  ∀ (text : List Char) (n : Nat), numberOf text = some n ↔
    (∃ digits : List (Fin 10), digits ≠ [] ∧ text = digits.map (fun d => Nat.digitChar d.val) ∧
      n = digits.foldl (fun before d => 10 * before + d.val) 0) ∨
    (∃ digits : List (Fin 16 × Bool), digits ≠ [] ∧
      text = "0x".toList ++ digits.map (fun d => if d.2 then (Nat.digitChar d.1.val).toUpper else Nat.digitChar d.1.val) ∧
      n = digits.foldl (fun before d => 16 * before + d.1.val) 0)

/-- R36, `||`: lines of one text line are sampled at the same edge, each on its own instance's ports. That an instance without a
line receives NOP is R37's "NOP if none" and program 3 of 95_test_vectors.md, read as log entry 6 has it (DEDUCED); that the
pieces of one line are for different instances is log entry 10 (DESIGN CHOICE). -/
def Obligations.LinesOfOneEdgeReachTheirInstances : Prop :=
  ∀ ps : List (Nat × PortIn), (ps.map Prod.fst).Nodup →
    (∀ j p, (j, p) ∈ ps → (edgeOfAll ps).getD j .idle = p) ∧
    (∀ j, j ∉ ps.map Prod.fst → (edgeOfAll ps).getD j .idle = .idle)

/-! ### The mixing datapath -/

/-- R47, the whole table and its worked example. -/
def Obligations.MixSpecialValues : Prop :=
  mix 0x00000000#32 0x00#8 = 0x00000000#32 ∧
  mix 0x80000000#32 0x00#8 = 0x80000000#32 ∧
  (∀ b : Byte, mix 0x00000000#32 b = b.setWidth 32) ∧
  mix 0x00000001#32 0x00#8 = 0x0001003F#32 ∧
  mix 0x00001505#32 0x00#8 = 0x150A2C3B#32 ∧
  mix 0x00001505#32 0x63#8 = 0x150A2C9E#32 ∧
  mix 0x00010000#32 0x00#8 = 0x003F0000#32 ∧
  mix 0x04000000#32 0x00#8 = 0xFC000000#32 ∧
  mix 0xFFFFFFFF#32 0x00#8 = 0xFFFEFFC1#32 ∧
  mix 0xFFFFFFFF#32 0xFF#8 = 0xFFFF00C0#32 ∧
  65599 * 0xFFFFFFFF + 0xFF = 0x1003EFFFF00C0 ∧
  ∀ r : Word, mix r 0 = r ↔ r = 0x00000000#32 ∨ r = 0x80000000#32

/-- R41 and R42: the wide shift form, which is never negative and fits 49 bits, the 32-bit shift form and the 32-bit
multiplier all give `mix`. -/
def Obligations.DatapathFormsAgree : Prop :=
  ∀ (r : Word) (b : Byte),
    r.toNat ≤ r.toNat * 2 ^ 16 ∧
    r.toNat * 2 ^ 16 + r.toNat * 2 ^ 6 - r.toNat + b.toNat < 2 ^ 49 ∧
    (mix r b).toNat = (r.toNat * 2 ^ 16 + r.toNat * 2 ^ 6 - r.toNat + b.toNat) % 2 ^ 32 ∧
    r <<< 16 = r.extractLsb' 0 16 ++ 0#16 ∧
    r <<< 6 = r.extractLsb' 0 26 ++ 0#6 ∧
    mix r b = (r <<< 16) + (r <<< 6) - r + b.setWidth 32 ∧
    mix r b = r * 0x0001003F#32 + b.setWidth 32

/-- R45: for a fixed byte `mix` has the inverse the rule gives, on both sides, and different states stay different under the
same byte sequence. -/
def Obligations.MixIsAPermutationOfTheStates : Prop :=
  65599 * 0x8E7AEFBF % 2 ^ 32 = 1 ∧
  (∀ (r : Word) (b : Byte), unmix (mix r b) b = r ∧ mix (unmix r b) b = r) ∧
  ∀ (r r' : Word) (data : List Byte), absorbSeq r data = absorbSeq r' data → r = r'

/-- R46. -/
def Obligations.MixIsInjectiveInTheByte : Prop :=
  ∀ (r : Word) (b c : Byte),
    (mix r b = mix r c ↔ b = c) ∧
    mix r b - mix r c = b.setWidth 32 - c.setWidth 32 ∧
    mix r b = mix r 0 + b.setWidth 32

/-! ### The commands -/

/-- R50: NOP completes and changes nothing, whatever the argument. -/
def Obligations.NopHoldsTheState : Prop :=
  ∀ s : State, exec .nop s = .next s ∧
    ∀ cw : CommandWord, cw.toNat / 2 ^ 64 = 0 → exec (decode cw) s = .next s

/-- R51: INIT completes with the seed in `H`, whatever `H` was and whatever the argument; nothing else changes; the output
then is the seed; INIT again changes nothing; `LOAD 5381` and reset do the same. -/
def Obligations.InitLoadsTheSeed : Prop :=
  ∀ s : State, ∃ t, exec .init s = .next t ∧
    t.h = 0x00001505#32 ∧ t.others = s.others ∧ t.inputs = s.inputs ∧
    t.hashOut 0 = some 0x0000000000001505#64 ∧
    exec .init t = .next t ∧
    exec (.load 5381#32) s = .next t ∧
    (∀ cw : CommandWord, runSample { rst := true, cw := cw } s = .next t) ∧
    ∀ arg : Arg, exec (decode (commandWord 0b01#2 arg)) s = .next t

/-- R52: LOAD completes with the low 32 bits of its argument in `H`, for every 64-bit argument; nothing else changes; loading
an instance's `hash_out` copies its state, and loading its own changes nothing. -/
def Obligations.LoadTakesTheLowHalfOfItsArgument : Prop :=
  (∀ (v : Word) (s : State), ∃ t, exec (.load v) s = .next t ∧
    t.h = v ∧ t.others = s.others ∧ t.inputs = s.inputs) ∧
  (∀ (arg : Arg) (s : State), ∃ t, exec (decode (commandWord 0b10#2 arg)) s = .next t ∧
    t.h.toNat = arg.toNat % 2 ^ 32 ∧ t.others = s.others ∧ t.inputs = s.inputs ∧
    t.hashOut 0 = some (BitVec.ofNat 64 (arg.toNat % 2 ^ 32))) ∧
  ∀ (s u : State) (j : Nat) (out : Arg), u.hashOut j = some out →
    ∃ t, exec (decode (commandWord 0b10#2 out)) s = .next t ∧ u.hAt j = some t.h ∧ (u = s → j = 0 → t = s)

/-- R40 and R53: ABSORB completes with `(65599 * H + b) mod 2^32` in `H`, from the old `H` and the unsigned low byte of the
argument; nothing else changes; a zero byte changes the state except at the two fixed points. The byte being unsigned is
the spec's decision D9 (R44; log entry 7). -/
def Obligations.AbsorbMixesTheByteIn : Prop :=
  (∀ (b : Byte) (s : State), ∃ t, exec (.absorb b) s = .next t ∧
    t.h.toNat = (65599 * s.h.toNat + b.toNat) % 2 ^ 32 ∧ t.others = s.others ∧ t.inputs = s.inputs) ∧
  (∀ (arg : Arg) (s : State), ∃ t, exec (decode (commandWord 0b11#2 arg)) s = .next t ∧
    t.h.toNat = (65599 * s.h.toNat + arg.toNat % 2 ^ 8) % 2 ^ 32 ∧ t.others = s.others ∧ t.inputs = s.inputs) ∧
  ∀ s : State, exec (.absorb 0) s = .next s ↔ s.h = 0x00000000#32 ∨ s.h = 0x80000000#32

/-- The frame of all four commands (R23: the only effect of any command is the write of `H`): the other instances and the
input still to come are unchanged, and NOP writes nothing. -/
def Obligations.CommandsWriteOnlyTheirRegister : Prop :=
  ∀ (i : Instr) (s t : State), exec i s = .next t →
    t.others = s.others ∧ t.inputs = s.inputs ∧ (i = .nop → t.h = s.h) ∧
    ∀ j, j ≠ 0 → t.hAt j = s.hAt j ∧ t.hashOut j = s.hashOut j

/-! ### The step -/

/-- A step runs the presented command. Placed on instance 0's ports with every other instance idle, a table word's command
is the whole step. In general the step at a state whose next edge drives only instance 0, with `rst = 0`, is `exec` of the
decoded command at that state with the edge used up (R25, R94). The model's choices in it: the word comes before all other
input (log entry 8, DESIGN CHOICE), a number's bits from 66 up are dropped (log entry 9, DESIGN CHOICE), and the instances the
edge does not drive are idle (log entry 6, DEDUCED). -/
def Obligations.StepRunsThePresentedCommand : Prop :=
  (∀ (s : State) (nbits w : Nat) (i : Instr), decodeTableWord nbits w = some i →
    step (s.withFetchWord nbits w) = exec i s) ∧
  ∀ (s : State) (p : PortIn) (es : List Edge), s.inputs = [p] :: es → p.rst = false →
    step s = exec (decode (commandWord p.op (s.sampleArg 0 p.arg))) { s with inputs := es }

/-- R54: the step always gives a next state, and in it every instance's `H` is the rule's step function of that instance's
old `H` and of the `rst`, `cmd_op` and `cmd_arg` on its ports; the output is that `H`, zero-extended. One edge is used up. -/
def Obligations.StepIsTheStepFunctionOfEveryInstance : Prop :=
  ∀ s : State, ∃ t, step s = .next t ∧ t.instances = s.instances ∧ t.inputs = s.inputs.tail ∧
    ∀ j r, s.hAt j = some r →
      ∃ r', t.hAt j = some r' ∧
        r'.toNat = specStep (s.portIn j).rst (s.portIn j).op (s.sampleArg j (s.portIn j).arg) r ∧
        t.hashOut j = some (BitVec.ofNat 64 r'.toNat)

/-- R80: from every state every number of edges completes, no fault and no refusal, using up one edge of input each, with the
same instances. -/
def Obligations.EveryRunCompletes : Prop :=
  ∀ (k : Nat) (s : State), ∃ t, runEdges k s = .next t ∧ t.inputs = s.inputs.drop k ∧ t.instances = s.instances

/-- R82 and R90: an instance whose `rst` is 1 at the edge holds the seed after it, whatever it held and whatever command was
on its port, and its output is the seed; INIT has the identical effect on `H`. -/
def Obligations.ResetWinsOverTheCommand : Prop :=
  (∀ (s u : State) (cw : CommandWord), ∃ t v, runSample { rst := true, cw := cw } s = .next t ∧
    exec .init u = .next v ∧ t.h = v.h ∧ t.others = s.others ∧ t.inputs = s.inputs) ∧
  ∀ (s : State) (j : Nat) (r : Word), s.hAt j = some r → (s.portIn j).rst = true →
    ∃ t, step s = .next t ∧ t.hAt j = some 0x00001505#32 ∧ t.hashOut j = some 0x0000000000001505#64

/-- R91: after one or more edges of reset on an instance the first command executed is that of the first edge with `rst = 0`,
and it runs on the seed. -/
def Obligations.FirstCommandAfterResetRunsOnTheSeed : Prop :=
  ∀ (s : State) (j : Nat) (resets : List Edge) (e : Edge) (es : List Edge),
    s.hAt j ≠ none → resets ≠ [] → s.inputs = resets ++ e :: es →
    (∀ p ∈ column j resets, p.rst = true) →
    (e.getD j .idle).rst = false →
    ∃ t u r, runEdges resets.length s = .next t ∧ t.hAt j = some 0x00001505#32 ∧ step t = .next u ∧
      u.hAt j = some r ∧ r.toNat = specStep false (e.getD j .idle).op (t.sampleArg j (e.getD j .idle).arg) 0x00001505#32

/-- With nothing given by the host every register holds its value for any number of edges (R50; log entry 6). -/
def Obligations.IdleEdgesHoldEveryRegister : Prop :=
  ∀ (k : Nat) (s : State), s.inputs = [] → runEdges k s = .next s

/-- R7: an instance's `H` after any number of edges is a function of its `H` before and of the values it sampled at each edge.
Two instances, in one system or in two, with the same `H` that sample the same values hold the same `H` after them; so do two
whose ports the host drives with the same numbers. -/
def Obligations.AnInstanceDependsOnItsOwnInputsOnly : Prop :=
  (∀ (k : Nat) (s s' : State) (j j' : Nat) (r : Word),
    s.hAt j = some r → s'.hAt j' = some r →
    (∀ m u u', m < k → runEdges m s = .next u → runEdges m s' = .next u' → u.sample j = u'.sample j') →
    ∃ t t' q, runEdges k s = .next t ∧ runEdges k s' = .next t' ∧ t.hAt j = some q ∧ t'.hAt j' = some q) ∧
  ∀ (k : Nat) (s s' : State) (j j' : Nat) (r : Word),
    s.hAt j = some r → s'.hAt j' = some r →
    column j s.inputs = column j' s'.inputs →
    (∀ p ∈ column j s.inputs, ∃ v, p.arg = .value v) →
    ∃ t t' q, runEdges k s = .next t ∧ runEdges k s' = .next t' ∧ t.hAt j = some q ∧ t'.hAt j' = some q

/-- At one edge, what is on one instance's ports changes no other instance's `H`: two edges that differ only on instance `i`'s
ports leave the same `H` in every other instance (R26), one that is wired to instance `i` among them, since the wire carries
the value of before the edge. For an instance wired from one that does not exist the equality is the model's choice (log entry
4, DESIGN CHOICE: the free value is the same at both edges); where both edges meet `Edge.wf` no such wire occurs. -/
def Obligations.ACommandChangesNoOtherInstance : Prop :=
  ∀ (s : State) (i : Nat) (e e' : Edge) (es : List Edge), (∀ j, j ≠ i → e.getD j .idle = e'.getD j .idle) →
    ∃ t t', step (s.given (e :: es)) = .next t ∧ step (s.given (e' :: es)) = .next t' ∧
      ∀ j, j ≠ i → t.hAt j = t'.hAt j

/-- R11: right after reset every instance holds the seed, and its output is the seed; INIT loads the same value. That
`State.reset` has one instance is the model's choice (log entry 1); the third clause is for every number of them. -/
def Obligations.ResetLeavesTheSeed : Prop :=
  State.reset.h = 5381#32 ∧
  State.reset.hashOut 0 = some 0x0000000000001505#64 ∧
  (∀ n j : Nat, j ≤ n → (State.resetOf n).hAt j = some 0x00001505#32) ∧
  exec .init State.reset = .next State.reset

/-- The invariant at reset, for every number of instances. -/
def Obligations.WellDrivenAtReset : Prop :=
  ∀ n : Nat, (State.resetOf n).Inv (n + 1)

/-- Every step keeps the invariant: the number of instances, and that the host drives only ports and wires that exist. Then
every wire carries the output of an existing instance in the cycle before the edge, so no step reads the free value of log
entry 4. -/
def Obligations.StepKeepsTheSystemWellDriven : Prop :=
  ∀ (n : Nat) (s : State), s.Inv n →
    (∀ t, step s = .next t → t.Inv n) ∧
    ∀ j i, (s.portIn j).arg = .wired i → ∃ r, s.hAt i = some r ∧ s.sampleArg j (.wired i) = hashOutOf r

/-! ### Output and duplication -/

/-- R60: an instance's `hash_out` is its `H` zero-extended to 64 bits, and a function of `H` alone. -/
def Obligations.HashOutIsHZeroExtended : Prop :=
  ∀ (s : State) (j : Nat) (r : Word), s.hAt j = some r →
    ∃ out, s.hashOut j = some out ∧ out.toNat = r.toNat ∧ out.extractLsb' 0 32 = r ∧ out.extractLsb' 32 32 = 0 ∧
      ∀ s' : State, s'.hAt j = some r → s'.hashOut j = some out

/-- R61: reads of `hash_out` change nothing: two host programs that drive the same edges end in the same state, whatever they
read and where. With a wire from an instance that does not exist the equality is the model's choice (log entry 4, DESIGN CHOICE:
the free value is the same in both runs); where the edges meet `Edge.wf` no such wire occurs. And the output in the cycle after the `k`-th ABSORB of a hash is the hash of the first `k` bytes. -/
def Obligations.ReadingDoesNotMutate : Prop :=
  (∀ (p q : List HostStep) (s : State), edgesOf p = edgesOf q →
    ∃ t reads reads', hostRun p s = .next (t, reads) ∧ hostRun q s = .next (t, reads')) ∧
  ∀ (s : State) (j k : Nat) (data : List Byte), s.hAt j ≠ none → k ≤ data.length →
    ∃ t, runEdges (k + 1) (s.given (HostAction.edges j (.hash data))) = .next t ∧
      t.hashOut j = some ((hashOf (data.take k)).setWidth 64)

/-- R62: the observation of a run of `k` edges is every instance's `hash_out` in the first cycle and in the cycle after each
edge, the last of them the output the run ends with. -/
def Obligations.ObservationIsTheOutputOfEveryCycle : Prop :=
  ∀ (k : Nat) (s : State), (observe k s).length = k + 1 ∧
    ∀ m ≤ k, ∃ t outs, runEdges m s = .next t ∧ (observe k s)[m]? = some outs ∧ ∀ j, outs[j]? = t.hashOut j

/-- R63: at an edge at which instance `j` receives LOAD with `cmd_arg` wired to instance `i`, it takes instance `i`'s `H` of
the cycle before the edge, whatever instance `i` itself executes at that edge; instance `i`, when it is another one, executes
its own command; the same value presented as a number at any edge gives the same copy. -/
def Obligations.CloneCopiesThePreEdgeValue : Prop :=
  ∀ (s : State) (i j : Nat) (ri rj : Word), s.hAt i = some ri → s.hAt j = some rj →
    ((s.portIn j = .cloneFrom i ∨ ∃ u : State, u.hAt i = some ri ∧ some (s.portIn j) = (u.hashOut i).map PortIn.load) →
      ∃ t, step s = .next t ∧ t.hAt j = some ri ∧
        (i ≠ j → ∃ q, t.hAt i = some q ∧
          q.toNat = specStep (s.portIn i).rst (s.portIn i).op (s.sampleArg i (s.portIn i).arg) ri))

/-- R64: at an edge at which `j` is cloned from an instance `i` that holds `hash(P)`, and at every later edge, instance `i`
receives NOPs and ABSORBs, and after that edge so does instance `j`, interleaved in time in any way. Each ends with the hash of
the prefix and its own suffix; a byte that instance `i` absorbs at the clone edge itself is the first of its own suffix (program
3 of 95_test_vectors.md). First for the bytes each instance samples, wired ones among them (log entry 14), then for the edges the
host gives, the bytes being numbers. -/
def Obligations.ClonesContinueIndependently : Prop :=
  (∀ (s : State) (i j k : Nat) (pre : List Byte),
    i ≠ j → s.hAt i = some (hashOf pre) → s.hAt j ≠ none → s.portIn j = .cloneFrom i →
    (∀ x ∈ sampled i (k + 1) s, x.streams = true) → (∀ x ∈ (sampled j (k + 1) s).tail, x.streams = true) →
    ∃ t, runEdges (k + 1) s = .next t ∧
      t.hAt i = some (hashOf (pre ++ bytesSampled (sampled i (k + 1) s))) ∧
      t.hAt j = some (hashOf (pre ++ bytesSampled (sampled j (k + 1) s).tail))) ∧
  ∀ (s : State) (i j : Nat) (e : Edge) (es : List Edge) (pre : List Byte),
    i ≠ j → s.hAt i = some (hashOf pre) → s.hAt j ≠ none →
    s.inputs = e :: es → e.getD j .idle = .cloneFrom i →
    (∀ p ∈ column i (e :: es), p.streams = true) → (∀ p ∈ column j es, p.streams = true) →
    ∃ t, runEdges (es.length + 1) s = .next t ∧
      t.hAt i = some (hashOf (pre ++ bytesOf (column i (e :: es)))) ∧
      t.hAt j = some (hashOf (pre ++ bytesOf (column j es)))

/-- Reading `hash_out` and loading the value at a later edge, into the same or another instance of any system, restores the
whole state of an instance (R84). -/
def Obligations.SavedOutputRestoresAnInstance : Prop :=
  ∀ (s u : State) (i j : Nat) (out : Arg), s.hashOut i = some out → u.hAt j ≠ none → u.portIn j = .load out →
    ∃ t, step u = .next t ∧ t.hAt j = s.hAt i ∧ t.hashOut j = some out

/-! ### Sequences -/

/-- R71: WRITE of `n` bytes takes `n` edges and folds them into `H`, left to right; the other instances hold; the empty WRITE
takes no edge. That the other instances
are unchanged is R26 with idle ports where the host gives an instance nothing (log entry 6, DEDUCED). -/
def Obligations.WriteFoldsTheBytesIn : Prop :=
  ∀ (s : State) (j : Nat) (r : Word) (data : List Byte), s.hAt j = some r →
    (HostAction.edges j (.write data)).length = data.length ∧
    ∃ t, runEdges data.length (s.given (HostAction.edges j (.write data))) = .next t ∧
      t.hAt j = some (absorbSeq r data) ∧ (∀ k, k ≠ j → t.hAt k = s.hAt k) ∧
      (data = [] → t.hAt j = some r)

/-- R72: HASHMORE takes `n + 1` edges and leaves the fold from the low half of its start argument, whatever `H` it found. That the other instances
are unchanged is R26 with idle ports where the host gives an instance nothing (log entry 6, DEDUCED). -/
def Obligations.HashMoreFoldsFromTheLoadedState : Prop :=
  ∀ (s : State) (j : Nat) (start : Arg) (data : List Byte), s.hAt j ≠ none →
    (HostAction.edges j (.hashMore start data)).length = data.length + 1 ∧
    ∃ t, runEdges (data.length + 1) (s.given (HostAction.edges j (.hashMore start data))) = .next t ∧
      t.hAt j = some (absorbSeq (BitVec.ofNat 32 (start.toNat % 2 ^ 32)) data) ∧
      t.hashOut j = some ((absorbSeq (BitVec.ofNat 32 (start.toNat % 2 ^ 32)) data).setWidth 64) ∧
      ∀ k, k ≠ j → t.hAt k = s.hAt k

/-- R73: HASH takes `n + 1` edges and leaves the fold from the seed, whatever `H` it found; so does a reset edge in place of
INIT; the hash of the empty sequence is 5381. That the other instances
are unchanged is R26 with idle ports where the host gives an instance nothing (log entry 6, DEDUCED). -/
def Obligations.HashFoldsFromTheSeed : Prop :=
  hashOf [] = 5381#32 ∧
  ∀ (s : State) (j : Nat) (data : List Byte), s.hAt j ≠ none →
    (HostAction.edges j (.hash data)).length = data.length + 1 ∧
    ∃ t u, runEdges (data.length + 1) (s.given (HostAction.edges j (.hash data))) = .next t ∧
      runEdges (data.length + 1)
        (s.given (HostAction.edges j .reset ++ HostAction.edges j (.write data))) = .next u ∧
      t.hAt j = some (absorbSeq 5381#32 data) ∧ u.hAt j = some (absorbSeq 5381#32 data) ∧
      t.hashOut j = some ((absorbSeq 5381#32 data).setWidth 64) ∧
      ∀ k, k ≠ j → t.hAt k = s.hAt k ∧ u.hAt k = s.hAt k

/-- R74 and R78: absorbing in two parts is absorbing the concatenation; and on the machine the output after a hash is that hash
widened, and read out and loaded into any instance of any system, followed by a suffix, it gives the hash of the whole. -/
def Obligations.ResumedHashIsTheWholeHash : Prop :=
  (∀ (r : Word) (a b : List Byte), absorbSeq (absorbSeq r a) b = absorbSeq r (a ++ b)) ∧
  ∀ (s u : State) (i j : Nat) (a b : List Byte), s.hAt i ≠ none → u.hAt j ≠ none →
    ∃ t out v, runEdges (a.length + 1) (s.given (HostAction.edges i (.hash a))) = .next t ∧
      t.hashOut i = some out ∧ out = (hashOf a).setWidth 64 ∧
      runEdges (b.length + 1) (u.given (HostAction.edges j (.hashMore out b))) = .next v ∧
      v.hashOut j = some ((hashOf (a ++ b)).setWidth 64)

/-- R77: NOPs anywhere change nothing, and an instance's `H` after a run depends only on the bytes after its last reset, INIT
or LOAD, and on what that one put into `H`; with none of them, on the start state and all the bytes. First for what the instance
samples, numbers and wires alike (a wired ABSORB is log entry 14); then for the edges the host gives, where the last overwrite is
a reset, an INIT, a LOAD of a number, or a clone, and the bytes are numbers. -/
def Obligations.OnlyWhatFollowsTheLastOverwriteMatters : Prop :=
  (∀ (s : State) (j k : Nat) (v : Word) (before : List Sample) (x : Sample) (after : List Sample), s.hAt j ≠ none →
    sampled j k s = before ++ x :: after → x.overwrites? = some v → (∀ y ∈ after, y.streams = true) →
    ∃ t, runEdges k s = .next t ∧ t.hAt j = some (absorbSeq v (bytesSampled after))) ∧
  (∀ (s : State) (j k : Nat) (r : Word), s.hAt j = some r → (∀ y ∈ sampled j k s, y.streams = true) →
    ∃ t, runEdges k s = .next t ∧ t.hAt j = some (absorbSeq r (bytesSampled (sampled j k s)))) ∧
  (∀ (s : State) (j : Nat) (v : Word) (before : List Edge) (e : Edge) (after : List Edge), s.hAt j ≠ none →
    s.inputs = before ++ e :: after → (e.getD j .idle).overwrites? = some v →
    (∀ p ∈ column j after, p.streams = true) →
    ∃ t, runEdges s.inputs.length s = .next t ∧ t.hAt j = some (absorbSeq v (bytesOf (column j after)))) ∧
  (∀ (s u : State) (i j : Nat) (r : Word) (before : List Edge) (e : Edge) (after : List Edge), s.hAt j ≠ none →
    s.inputs = before ++ e :: after → e.getD j .idle = .cloneFrom i →
    runEdges before.length s = .next u → u.hAt i = some r →
    (∀ p ∈ column j after, p.streams = true) →
    ∃ t, runEdges s.inputs.length s = .next t ∧ t.hAt j = some (absorbSeq r (bytesOf (column j after)))) ∧
  ∀ (s : State) (j : Nat) (r : Word), s.hAt j = some r → (∀ p ∈ column j s.inputs, p.streams = true) →
    ∃ t, runEdges s.inputs.length s = .next t ∧ t.hAt j = some (absorbSeq r (bytesOf (column j s.inputs)))

/-- The closed form of R76, with the power of `K` in the order of the bytes, and two of the rule's check values. -/
def Obligations.HashMoreClosedForm : Prop :=
  (∀ (r : Word) (data : List Byte),
    (absorbSeq r data).toNat = (r.toNat * 65599 ^ data.length + weightedBytes data) % 2 ^ 32) ∧
  65599 ^ 2 % 2 ^ 32 = 0x007E0F81 ∧ 65599 ^ 10 % 2 ^ 32 = 0x6698CD81

/-- The multiplicative order of `K` modulo 2^32 is 2^26 (R76): a run of zero bytes brings every state back exactly when its
length is a multiple of 2^26. -/
def Obligations.ZeroBytesReturnWithTheOrderOfK : Prop :=
  ∀ n : Nat, (∀ r : Word, absorbSeq r (List.replicate n 0#8) = r) ↔ 2 ^ 26 ∣ n

/-- R79: the effect of a change of the start state or of one byte on the result, and that two sequences of equal length that
differ in exactly one byte never collide. -/
def Obligations.DependenceOnStartStateAndByte : Prop :=
  (∀ (r r' : Word) (data : List Byte),
    absorbSeq r data - absorbSeq r' data = (r - r') * BitVec.ofNat 32 (65599 ^ data.length)) ∧
  (∀ data : List Byte, Function.Bijective fun r => absorbSeq r data) ∧
  ∀ (r : Word) (front back : List Byte) (b c : Byte),
    absorbSeq r (front ++ b :: back) - absorbSeq r (front ++ c :: back) =
      (b.setWidth 32 - c.setWidth 32) * BitVec.ofNat 32 (65599 ^ back.length) ∧
    (b ≠ c → absorbSeq r (front ++ b :: back) ≠ absorbSeq r (front ++ c :: back))

/-- R92: from power-up, while an instance receives only NOPs and ABSORBs, its `H` is the fold of the bytes from its unspecified
value; after an edge that resets, INITs or LOADs it, from a number or from a wire, it holds the value put in. Holds for every
power-up value: it is a free value (log entry 2). -/
def Obligations.PowerUpValueLastsUntilOverwritten : Prop :=
  (∀ (n j : Nat) (es : List Edge), j ≤ n → (∀ p ∈ column j es, p.streams = true) →
    ∃ t, runEdges es.length ((State.powerUp n).given es) = .next t ∧
      t.hAt j = some (absorbSeq (Config.powerUpH j) (bytesOf (column j es)))) ∧
  (∀ (n j : Nat) (before : List Edge) (e : Edge) (v : Word), j ≤ n → (e.getD j .idle).overwrites? = some v →
    ∃ t, runEdges (before.length + 1) ((State.powerUp n).given (before ++ [e])) = .next t ∧ t.hAt j = some v) ∧
  ∀ (n j k : Nat) (es : List Edge) (u : State) (v : Word), j ≤ n →
    runEdges k ((State.powerUp n).given es) = .next u → (u.sample j).overwrites? = some v →
    ∃ t, step u = .next t ∧ t.hAt j = some v

/-- The source's numeric examples, all of 95_test_vectors.md section 1.1 (S1 to S8 and S11 to S15). `stem` is the 44 ASCII bytes
of section 1.3. -/
def Obligations.SourceExampleValues : Prop :=
  let stem : List Byte :=
    [0x6F, 0x72, 0x67, 0x2E, 0x61, 0x70, 0x61, 0x63, 0x68, 0x65, 0x2E, 0x65, 0x74, 0x63, 0x68, 0x2E,
     0x65, 0x78, 0x61, 0x6D, 0x70, 0x6C, 0x65, 0x2E, 0x62, 0x69, 0x6E, 0x61, 0x72, 0x79, 0x2E, 0x62,
     0x69, 0x6E, 0x61, 0x72, 0x79, 0x45, 0x78, 0x61, 0x6D, 0x70, 0x6C, 0x65]
  Config.seed = 5381#32 ∧
  hashOf [] = 5381#32 ∧
  absorbSeq 5381#32 [] = 5381#32 ∧
  hashOf [0x63] = 0x150A2C9E#32 ∧
  hashOf [0x61] = 352988316#32 ∧
  hashOf [0x61, 0x62] = 1511848646#32 ∧
  hashOf [0x61, 0x62, 0x63] = 669497117#32 ∧
  hashOf [0x61, 0x62, 0x63, 0x64, 0x65, 0x66, 0x67, 0x68, 0x69, 0x6A] = 4290539978#32 ∧
  hashOf (stem ++ [0x2E, 0x66]) = 0x28E34AA1#32 ∧
  hashOf (stem ++ [0x2E, 0x5F, 0x72, 0x65, 0x73, 0x75, 0x6C, 0x74, 0x5F, 0x66]) = 0x0972201E#32 ∧
  hashOf (stem ++ [0x2E, 0x41]) = 0x28E34A7C#32 ∧
  absorbSeq (hashOf stem) [0x2E, 0x66] = 0x28E34AA1#32 ∧
  State.reset.hashOut 0 = some 5381#64

end
end

