-- ==== Sys2Proof/Laws/State.lean ====
section
/-! SUPPORT. One lemma per field of State and per update. -/

namespace Sys2Proof.Machine

@[simp] theorem State.writeH_h (s : State) (v : Word) : (s.writeH v).h = v := rfl
@[simp] theorem State.writeH_others (s : State) (v : Word) : (s.writeH v).others = s.others := rfl
@[simp] theorem State.writeH_inputs (s : State) (v : Word) : (s.writeH v).inputs = s.inputs := rfl

@[simp] theorem State.takeReset_h (s : State) : s.takeReset.h = Config.seed := rfl
@[simp] theorem State.takeReset_others (s : State) : s.takeReset.others = s.others := rfl
@[simp] theorem State.takeReset_inputs (s : State) : s.takeReset.inputs = s.inputs := rfl

@[simp] theorem State.present_h (s : State) (e : Edge) : (s.present e).h = s.h := rfl
@[simp] theorem State.present_others (s : State) (e : Edge) : (s.present e).others = s.others := rfl
@[simp] theorem State.present_inputs (s : State) (e : Edge) : (s.present e).inputs = e :: s.inputs := rfl

@[simp] theorem State.soleInstance_h (r : Word) : (State.soleInstance r).h = r := rfl

end Sys2Proof.Machine
end

