-- ==== Sys2Proof/Laws/Ops.lean ====
section
/-! SUPPORT. What each shared operation can do, said once: the datapath, the fields of a command word, a command. -/

namespace Sys2Proof.Machine

theorem mix_toNat (r : Word) (b : Byte) : (mix r b).toNat = (65599 * r.toNat + b.toNat) % 2 ^ 32 := by
  simp [mix, Config.multiplier]

/-- `mix` in 32-bit arithmetic (R42), the form most laws about it start from. -/
theorem mix_eq_mul_add (r : Word) (b : Byte) : mix r b = r * 0x0001003F#32 + b.setWidth 32 := by
  apply BitVec.eq_of_toNat_eq
  simp [mix_toNat, Nat.mul_comm]

theorem opField_commandWord (op : Op) (arg : Arg) : opField (commandWord op arg) = op := by
  unfold opField commandWord
  exact BitVec.extractLsb'_append_eq_left

theorem argField_commandWord (op : Op) (arg : Arg) : argField (commandWord op arg) = arg := by
  unfold argField commandWord
  exact BitVec.extractLsb'_append_eq_right

theorem commandWord_toNat (op : Op) (arg : Arg) : (commandWord op arg).toNat = op.toNat * 2 ^ 64 + arg.toNat := by
  unfold commandWord
  rw [BitVec.toNat_append, Nat.shiftLeft_eq, Nat.mul_comm, Nat.two_pow_add_eq_or_of_lt arg.isLt]

theorem loadOperand_toNat (arg : Arg) : (loadOperand arg).toNat = arg.toNat % 2 ^ 32 := by
  simp [loadOperand]

theorem absorbOperand_toNat (arg : Arg) : (absorbOperand arg).toNat = arg.toNat % 2 ^ 8 := by
  simp [absorbOperand]

theorem hashOutOf_toNat (r : Word) : (hashOutOf r).toNat = r.toNat := by
  have := r.isLt
  simp only [hashOutOf, BitVec.toNat_setWidth]
  omega

/-- The two ports connect bit for bit: LOAD of an output takes the register it came from (R63). -/
theorem loadOperand_hashOutOf (r : Word) : loadOperand (hashOutOf r) = r := by
  apply BitVec.eq_of_toNat_eq
  have := r.isLt
  rw [loadOperand_toNat, hashOutOf_toNat]
  omega

/-- A command changes the register of its instance and nothing else of the state (R23). -/
theorem exec_writes (i : Instr) (s : State) : ∃ v, exec i s = .next (s.writeH v) := by
  cases i <;> exact ⟨_, rfl⟩

end Sys2Proof.Machine
end

