-- ==== Sys2Proof/Laws/Edge.lean ====
section
/-! SUPPORT. What one rising edge does, said once: every instance's new register is a function of its old one and of the
values it sampled, and the edge is used up. -/

namespace Sys2Proof.Machine

/-- The register of an instance after an edge, from the one before and what it sampled. -/
def sampleH (x : Sample) (r : Word) : Word :=
  if x.rst then Config.seed
  else
    match decode x.cw with
    | .nop => r
    | .init => Config.seed
    | .load v => v
    | .absorb b => mix r b

theorem runSample_eq (x : Sample) (s : State) : runSample x s = .next (s.writeH (sampleH x s.h)) := by
  unfold runSample sampleH
  split
  · rfl
  · cases decode x.cw <;> rfl

theorem runOthers_eq (pre : State) (rs : List Word) (j : Nat) :
    runOthers pre j rs = .next (rs.mapIdx fun k r => sampleH (pre.sample (j + k)) r) := by
  induction rs generalizing j with
  | nil => rfl
  | cons r rs ih =>
    simp only [runOthers, runSample_eq, ih, List.mapIdx_cons]
    simp [Nat.add_comm, Nat.add_left_comm]

theorem step_eq (s : State) :
    step s = .next
      { h := sampleH (s.sample 0) s.h
        others := s.others.mapIdx fun k r => sampleH (s.sample (1 + k)) r
        inputs := s.inputs.tail } := by
  simp only [step, runEdge, runSample_eq, runOthers_eq]
  rfl

/-- The step, one instance at a time. -/
theorem step_hAt {s t : State} (h : step s = .next t) (j : Nat) :
    t.hAt j = (s.hAt j).map (sampleH (s.sample j)) := by
  rw [step_eq] at h
  cases h
  cases j with
  | zero => rfl
  | succ j => simp [State.hAt, State.accs, Nat.add_comm]

theorem step_inputs {s t : State} (h : step s = .next t) : t.inputs = s.inputs.tail := by
  rw [step_eq] at h
  cases h
  rfl

theorem step_instances {s t : State} (h : step s = .next t) : t.instances = s.instances := by
  rw [step_eq] at h
  cases h
  simp [State.instances, State.accs]

end Sys2Proof.Machine
end

