-- ==== Sys2Proof/Laws/PerInstr.lean ====
section
/-! SUPPORT. Statements made per command, about the command as the host writes it. -/

namespace Sys2Proof.Laws

/-- The value of `CW[65:64]` of the canonical word (spec/30_encoding.md R31, R36). -/
def OpcodeOfEncoding.Statement (i : Instr) : Prop :=
  i.wf = true ∧
    opField (encode i) =
      match i with
      | .nop => 0b00#2
      | .init => 0b01#2
      | .load _ => 0b10#2
      | .absorb _ => 0b11#2

theorem OpcodeOfEncoding.nop : OpcodeOfEncoding.Statement .nop :=
  ⟨rfl, Machine.opField_commandWord _ _⟩

theorem OpcodeOfEncoding.init : OpcodeOfEncoding.Statement .init :=
  ⟨rfl, Machine.opField_commandWord _ _⟩

theorem OpcodeOfEncoding.load (s : Word) : OpcodeOfEncoding.Statement (.load s) :=
  ⟨rfl, Machine.opField_commandWord _ _⟩

theorem OpcodeOfEncoding.absorb (b : Byte) : OpcodeOfEncoding.Statement (.absorb b) :=
  ⟨rfl, Machine.opField_commandWord _ _⟩

end Sys2Proof.Laws
end

