-- ==== Sys2Proof/Tests/Slice0.lean ====
section
/-! SUPPORT. Tests on single words and single edges, their expected values from spec/95_test_vectors.md or worked out from the
rule they name, and for every statement with hypotheses a witness that meets them. -/

namespace Sys2Proof.Tests
open Sys2Proof.Machine

/-- The registers after an outcome; no register where it is no next state. -/
def registers : Host.Outcome State Fault Refusal → List Word
  | .next t => t.accs
  | .fault _ => []
  | .refused _ => []

/-- One instance holding `r`, at whose next edge the ports carry these values. -/
def oneEdge (rst : Bool) (cw : CommandWord) (r : Word) : State :=
  { h := r, others := [], inputs := [[{ rst := rst, op := opField cw, arg := .value (argField cw) }]] }

/-! ### Well-formedness: each check refuses an ill-formed term -/

theorem test_wf_refuses_port_of_no_instance : Edge.wf 1 [.idle, .idle] = false := by decide
theorem test_wf_refuses_wire_from_no_instance : Edge.wf 1 [.cloneFrom 1] = false := by decide
theorem test_wf_accepts_clone : Edge.wf 2 [.idle, .cloneFrom 0] = true := by decide
theorem test_wf_accepts_every_command : (Instr.load 0xFFFFFFFF).wf = true := by decide

/-! ### Decoding, words written out from R31 and R32 (vectors N3, N5, I5, L4, L8, A6, A9) -/

theorem test_decode_nop_all_ones : decode 0x0FFFFFFFFFFFFFFFF = .nop := by decide
theorem test_decode_nop_byte : decode 0x00000000000000061 = .nop := by decide
theorem test_decode_init_junk : decode 0x10000000012345678 = .init := by decide
theorem test_decode_load_bit32 : decode 0x20000000100000000 = .load 0 := by decide
theorem test_decode_load_bits_31_63 : decode 0x28000000080000000 = .load 0x80000000 := by decide
theorem test_decode_absorb_bit8 : decode 0x30000000000000161 = .absorb 0x61 := by decide
theorem test_decode_absorb_ff : decode 0x300000000000000FF = .absorb 0xFF := by decide
theorem test_decode_table_word_bit0 : decodeTableWord 72 0x30000000000000001 = some (.absorb 1) := by decide
/-- R36: `0x2` and sixteen digits, `0x3`, fourteen zeros and two digits. -/
theorem test_encode_load : encode (.load 0xABCDEF01) = 0x200000000ABCDEF01 := by decide
theorem test_encode_absorb : encode (.absorb 0x42) = 0x30000000000000042 := by decide

/-! ### The datapath (vectors M12, M20, M21) -/

theorem test_mix_largest : mix 0xFFFFFFFF 0xFF = 0xFFFF00C0 := by decide
theorem test_mix_arbitrary : mix 0xDEADBEEF 0x42 = 0x8BB0FD13 := by decide
theorem test_mix_high_byte : mix 0x12345678 0x9A = 0xD1594822 := by decide

/-! ### One edge (vectors N2, I4, L6, A8, A14, Z2, Z5, K2, K3) -/

theorem test_step_nop_junk : registers (step (oneEdge false 0x0DEADBEEF00000061 0x150A2C9C)) = [0x150A2C9C] := by decide
theorem test_step_init : registers (step (oneEdge false 0x1FFFFFFFFFFFFFFFF 0x27E7B71D)) = [0x00001505] := by decide
theorem test_step_load : registers (step (oneEdge false 0x2FFFFFFFFFFFFFFFF 0x12345678)) = [0xFFFFFFFF] := by decide
theorem test_step_absorb_zero : registers (step (oneEdge false 0x30000000000000000 0x150A2C3B)) = [0x59BBE285] := by decide
theorem test_step_absorb_wraps : registers (step (oneEdge false 0x300000000000000FF 0xFFFF00C0)) = [0x0081303F] := by decide
theorem test_step_reset_wins : registers (step (oneEdge true 0x30000000000000061 0x27E7B71D)) = [0x00001505] := by decide
theorem test_step_no_reset : registers (step (oneEdge false 0x30000000000000061 0x27E7B71D)) = [0x89231084] := by decide
theorem test_clone_takes_the_old_value :
    registers (step { h := 0x5A1CFAC6, others := [0], inputs := [[.command (.absorb 0x63), .cloneFrom 0]] })
      = [0x27E7B71D, 0x5A1CFAC6] := by decide
/-- R63: a chain of clones at one edge moves the pre-edge values. -/
theorem test_clone_chain :
    registers (step { h := 1, others := [2, 3], inputs := [[.idle, .cloneFrom 0, .cloneFrom 1]] }) = [1, 1, 2] := by decide
/-- R60: vector O5. -/
theorem test_hash_out_zero_extends : hashOutOf 0xFFBC71CA = 0x00000000FFBC71CA := by decide
theorem test_presented_word_runs_first :
    registers (step (State.reset.withFetchWord 72 0x30000000000000061)) = [0x150A2C9C] := by decide

/-! ### The assembler (R36, R37; program 3, edge 4) -/

theorem test_assemble_same_edge :
    assemble "@0: ABSORB 'c' || CLONE @0 -> @1".toList = some [.edge [.command (.absorb 0x63), .cloneFrom 0]] := by decide
theorem test_assemble_hashmore :
    assemble "HASHMORE 0x5A1CFAC6, \"c\"\nFINISH -> v".toList =
      some [.edge [.load 0x5A1CFAC6], .edge [.command (.absorb 0x63)], .read 0 ['v']] := by decide
theorem test_assemble_utf8 :
    assemble "WRITE \"é\"".toList = some [.edge [.command (.absorb 0xC3)], .edge [.command (.absorb 0xA9)]] := by decide
/-- R36: a number that names an instance may be hexadecimal. -/
theorem test_assemble_hexadecimal_instance :
    assemble "@0x1: NOP || @0: INIT".toList = some [.edge [.command .init, .command .nop]] := by decide
/-- The spelling R36 shows, at its own line and at another character. -/
theorem test_assemble_character : assemble "ABSORB 'a'\n@1: ABSORB '.'".toList =
    some [.edge [.command (.absorb 0x61)], .edge [.idle, .command (.absorb 0x2E)]] := by decide
theorem test_assemble_refuses_wide_byte : assemble "ABSORB 256".toList = none := by decide

/-! ### Witnesses: a state and operands that meet the hypotheses of each statement -/

/-- Two instances, the first holding `hash("ab")`: edges 4 and 5 of program 3, a clone edge at which the source absorbs, then an
edge at which each absorbs a byte of its own. -/
def cloning : State :=
  { h := hashOf [0x61, 0x62], others := [0xDEADBEEF]
    inputs := [[.command (.absorb 0x63), .cloneFrom 0], [.command (.absorb 0x64), .command (.absorb 0x78)]] }

/-- Two instances, reset at two edges on the second one, which then absorbs a byte. -/
def resetting : State :=
  { h := 7, others := [0xFFFFFFFF]
    inputs := [[.idle, .reset], [.idle, .reset], [.idle, .command (.absorb 0x61)]] }

theorem witness_LinesOfOneEdge : (([(1, .reset), (0, .cloneFrom 1)] : List (Nat × PortIn)).map Prod.fst).Nodup := by decide
theorem witness_CommandLines :
    (∃ index, numberOf index = some 1 ∧ [.atSign, .word "0x1".toList, .colon] = [Tok.atSign, .word index, .colon]) ∧
    numberOf "255".toList = some 255 ∧ numberOf "0xffFFffFFffFFffFF".toList = some (2 ^ 64 - 1) :=
  ⟨⟨"0x1".toList, by decide, rfl⟩, by decide, by decide⟩
theorem witness_CommandLines_unprefixed : ([] : List Tok) = [] ∧ 0 = 0 ∧ numberOf "0".toList = some 0 := by decide
/-- The spellings of 31, and texts that are no number. -/
theorem witness_CommandLines_numbers :
    numberOf "0x1F".toList = some 31 ∧ numberOf "0x1f".toList = some 31 ∧ numberOf "31".toList = some 31 ∧
    numberOf "031".toList = some 31 ∧ numberOf "0x".toList = none ∧ numberOf "1F".toList = none ∧ numberOf [] = none := by
  decide
theorem witness_CommandLines_out_of_range :
    numberOf "256".toList = some 256 ∧ numberOf "0x10000000000000000".toList = some (2 ^ 64) := by decide
theorem witness_LinesOfOneEdge_absent :
    2 ∉ ([(1, .reset), (0, .cloneFrom 1)] : List (Nat × PortIn)).map Prod.fst := by decide
theorem witness_IgnoredBits :
    decode 0x2DEADBEEF00001505 = decode 0x20000000000001505 ∧ decode 0x30000000000000161 = decode 0x30000000000000061 := by
  decide
theorem witness_MixIsAPermutation : absorbSeq 5 [0xFF, 0x00] = absorbSeq 5 [0xFF, 0x00] := rfl
theorem witness_Nop : (0x0DEADBEEF00000061 : CommandWord).toNat / 2 ^ 64 = 0 := by decide
theorem witness_Load_other_output : cloning.hashOut 1 = some 0x00000000DEADBEEF := by decide
theorem witness_Load_own_output : State.reset.hashOut 0 = some 0x1505 ∧ State.reset = State.reset ∧ 0 = 0 := by decide
theorem witness_Frame : exec (.absorb 0x63) cloning = .next { cloning with h := 0x27E7B71D } := rfl
theorem witness_Frame_nop : exec .nop cloning = .next cloning := rfl
theorem witness_StepRuns_word : decodeTableWord 66 0x2DEADBEEF28E34AA1 = some (.load 0x28E34AA1) := by decide
theorem witness_StepRuns_edge :
    (oneEdge false 0x30000000000000061 5).inputs = [{ rst := false, op := 3, arg := .value 0x61 }] :: [] := by decide
theorem witness_StepIs : cloning.hAt 1 = some 0xDEADBEEF := by decide
theorem witness_ResetWins : resetting.hAt 1 = some 0xFFFFFFFF ∧ (resetting.portIn 1).rst = true := by decide
theorem witness_FirstCommandAfterReset :
    resetting.hAt 1 ≠ none ∧ [[PortIn.idle, .reset], [PortIn.idle, .reset]] ≠ [] ∧
    resetting.inputs = [[PortIn.idle, .reset], [PortIn.idle, .reset]] ++ [PortIn.idle, .command (.absorb 0x61)] :: [] ∧
    (∀ p ∈ column 1 [[PortIn.idle, .reset], [PortIn.idle, .reset]], p.rst = true) ∧
    (([PortIn.idle, .command (.absorb 0x61)] : Edge).getD 1 .idle).rst = false := by decide
theorem witness_Idle : State.reset.inputs = [] := rfl
theorem witness_OwnInputs :
    (oneEdge false 0x30000000000000061 5).hAt 0 = some 5 ∧
    ({ h := 9, others := [5], inputs := [[.reset, .command (.absorb 0x61)]] } : State).hAt 1 = some 5 ∧
    column 0 (oneEdge false 0x30000000000000061 5).inputs = column 1 [[PortIn.reset, .command (.absorb 0x61)]] ∧
    ∀ p ∈ column 0 (oneEdge false 0x30000000000000061 5).inputs, ∃ v, p.arg = .value v :=
  ⟨by decide, by decide, by decide, fun _ h => ⟨0x61, by rw [List.mem_singleton.mp h]; decide⟩⟩
theorem witness_OwnInputs_samples :
    (oneEdge false 0x30000000000000061 5).hAt 0 = some 5 ∧
    ∀ m u u', m < 1 → runEdges m (oneEdge false 0x30000000000000061 5) = .next u →
      runEdges m (oneEdge false 0x30000000000000061 5) = .next u' → u.sample 0 = u'.sample 0 :=
  ⟨by decide, fun _ _ _ _ h h' => by rw [h] at h'; cases h'; rfl⟩
theorem witness_ACommandChangesNoOther :
    ∀ j, j ≠ 0 → ([.command (.absorb 1), .cloneFrom 0] : Edge).getD j .idle = ([.reset, .cloneFrom 0] : Edge).getD j .idle := by
  intro j hj
  cases j with
  | zero => exact absurd rfl hj
  | succ j => rfl
theorem witness_ResetLeaves_last : 3 ≤ 3 ∧ (State.resetOf 3).hAt 3 = some 0x1505 := by decide
theorem witness_StepKeeps : cloning.Inv 2 ∧ (cloning.portIn 1).arg = .wired 0 := ⟨⟨rfl, by decide⟩, by decide⟩
theorem witness_StepKeeps_next : ∃ t, step cloning = .next t := ⟨_, rfl⟩
theorem witness_HashOut : cloning.hAt 0 = some 0x5A1CFAC6 ∧ ({ cloning with inputs := [] } : State).hAt 0 = some 0x5A1CFAC6 := by
  decide
theorem witness_Reading_same_edges :
    edgesOf [.read 0 ['v'], .edge [.reset], .read 0 ['w']] = edgesOf [.edge [.reset], .read 1 ['x']] := by decide
theorem witness_Reading_ends : State.reset.hAt 0 ≠ none ∧ 0 ≤ [0x61#8].length ∧ 1 ≤ [0x61#8].length := by decide
theorem witness_Observation_ends : 0 ≤ 2 ∧ 2 ≤ 2 ∧ (observe 2 cloning)[2]? = some [0x89231087, 0x27E7B732] := by decide
theorem witness_Clone_wire :
    cloning.hAt 0 = some 0x5A1CFAC6 ∧ cloning.hAt 1 = some 0xDEADBEEF ∧ cloning.portIn 1 = .cloneFrom 0 := by decide
theorem witness_Clone_number :
    cloning.hAt 0 = some 0x5A1CFAC6 ∧
    some (({ cloning with inputs := [[.idle, .load 0x5A1CFAC6]] } : State).portIn 1) = (cloning.hashOut 0).map PortIn.load := by
  decide
theorem witness_ClonesContinue :
    0 ≠ 1 ∧ cloning.hAt 0 = some (hashOf [0x61, 0x62]) ∧ cloning.hAt 1 ≠ none ∧
    cloning.inputs = [.command (.absorb 0x63), .cloneFrom 0] :: [[.command (.absorb 0x64), .command (.absorb 0x78)]] ∧
    ([.command (.absorb 0x63), .cloneFrom 0] : Edge).getD 1 .idle = .cloneFrom 0 ∧
    (∀ p ∈ column 0 cloning.inputs, p.streams = true) ∧
    (∀ p ∈ column 1 cloning.inputs.tail, p.streams = true) := by decide
theorem witness_ClonesContinue_sampled :
    cloning.portIn 1 = .cloneFrom 0 ∧ (∀ x ∈ sampled 0 2 cloning, x.streams = true) ∧
    (∀ x ∈ (sampled 1 2 cloning).tail, x.streams = true) ∧ bytesSampled (sampled 0 2 cloning) = [0x63, 0x64] := by decide
theorem witness_SavedOutput :
    cloning.hashOut 0 = some 0x5A1CFAC6 ∧ (oneEdge false 0x2000000005A1CFAC6 1).hAt 0 ≠ none ∧
    (oneEdge false 0x2000000005A1CFAC6 1).portIn 0 = .load 0x5A1CFAC6 := by decide
theorem witness_Write : cloning.hAt 1 = some 0xDEADBEEF ∧ ([] : List Byte) = [] := by decide
theorem witness_Sequences : cloning.hAt 0 ≠ none ∧ cloning.hAt 1 ≠ none := by decide
theorem witness_LastOverwrite :
    ∀ v, (PortIn.overwrites? (.load 0xDEADBEEF16026369) = some v ↔ v = 0x16026369) := by
  intro v; rw [show PortIn.overwrites? (.load 0xDEADBEEF16026369) = some 0x16026369 by decide]
  exact ⟨fun h => (Option.some.inj h).symm, fun h => by rw [h]⟩
theorem witness_LastOverwrite_inputs :
    (State.given State.reset [[.idle], [.reset], [.command .nop], [.command (.absorb 1)]]).inputs =
      [[PortIn.idle]] ++ [PortIn.reset] :: [[.command .nop], [.command (.absorb 1)]] ∧
    (([PortIn.reset] : Edge).getD 0 .idle).overwrites? = some 0x1505 ∧
    State.reset.hAt 0 ≠ none ∧
    ∀ p ∈ column 0 [[.command .nop], [.command (.absorb 1)]], p.streams = true := by decide
theorem witness_LastOverwrite_sampled :
    cloning.hAt 1 ≠ none ∧
    sampled 1 2 cloning = [] ++ (cloning.sample 1) :: [{ rst := false, cw := 0x30000000000000078 }] ∧
    (cloning.sample 1).overwrites? = some 0x5A1CFAC6 ∧
    ∀ y ∈ [({ rst := false, cw := 0x30000000000000078 } : Sample)], y.streams = true := by decide
theorem witness_LastOverwrite_sampled_none :
    cloning.hAt 0 = some 0x5A1CFAC6 ∧ ∀ y ∈ sampled 0 2 cloning, y.streams = true := by decide
theorem witness_LastOverwrite_clone :
    cloning.hAt 1 ≠ none ∧
    cloning.inputs = [] ++ [.command (.absorb 0x63), .cloneFrom 0] :: [[.command (.absorb 0x64), .command (.absorb 0x78)]] ∧
    ([.command (.absorb 0x63), .cloneFrom 0] : Edge).getD 1 .idle = .cloneFrom 0 ∧ cloning.hAt 0 = some 0x5A1CFAC6 ∧
    ∀ p ∈ column 1 [[.command (.absorb 0x64), .command (.absorb 0x78)]], p.streams = true := by decide
theorem witness_LastOverwrite_clone_run : runEdges ([] : List Edge).length cloning = .next cloning := rfl
theorem witness_LastOverwrite_none :
    ∀ p ∈ column 0 (State.given State.reset [[.command .nop], [.command (.absorb 1)]]).inputs, p.streams = true := by decide
theorem witness_DependenceOnByte : (0x00 : Byte) ≠ 0xFF := by decide
theorem witness_PowerUp_streams : 2 ≤ 2 ∧ ∀ p ∈ column 2 [[PortIn.idle, .idle, .command (.absorb 0)]], p.streams = true := by
  decide
theorem witness_PowerUp_overwritten_sample :
    2 ≤ 2 ∧ runEdges 0 ((State.powerUp 2).given [[PortIn.idle, .idle, .load 7]]) =
        .next ((State.powerUp 2).given [[PortIn.idle, .idle, .load 7]]) ∧
      (((State.powerUp 2).given [[PortIn.idle, .idle, .load 7]]).sample 2).overwrites? = some 7 :=
  ⟨by decide, rfl, by decide⟩
theorem witness_PowerUp_overwritten :
    2 ≤ 2 ∧ (([PortIn.idle, .idle, .command .init] : Edge).getD 2 .idle).overwrites? = some 0x1505 := by decide

end Sys2Proof.Tests
end

section
/-! PROOFS. A run of edges, one instance at a time: every run completes, and an instance's register after it is the fold of
`sampleH` over the values that instance sampled (spec/00_scope.md R7, spec/20_memory.md R25). -/

namespace Sys2Proof.Machine

/-- A step always gives a next state (R80). -/
theorem step_completes (s : State) : ∃ t, step s = .next t := ⟨_, step_eq s⟩

theorem runEdges_succ {s t : State} (h : step s = .next t) (k : Nat) : runEdges (k + 1) s = runEdges k t := by
  simp only [runEdges, h]

theorem sampled_succ {s t : State} (h : step s = .next t) (j k : Nat) :
    sampled j (k + 1) s = s.sample j :: sampled j k t := by
  simp only [sampled, h]

theorem runEdges_completes (k : Nat) (s : State) : ∃ t, runEdges k s = .next t := by
  induction k generalizing s with
  | zero => exact ⟨s, rfl⟩
  | succ k ih =>
    obtain ⟨u, hu⟩ := step_completes s
    rw [runEdges_succ hu]
    exact ih u

/-- The register of an instance after a run of edges, from the one before and what it sampled at each of them. -/
def samplesH (xs : List Sample) (r : Word) : Word := xs.foldl (fun q x => sampleH x q) r

@[simp] theorem samplesH_nil (r : Word) : samplesH [] r = r := rfl

@[simp] theorem samplesH_cons (x : Sample) (xs : List Sample) (r : Word) :
    samplesH (x :: xs) r = samplesH xs (sampleH x r) := rfl

/-- A run, one instance at a time. -/
theorem runEdges_hAt {k : Nat} {s t : State} (h : runEdges k s = .next t) (j : Nat) :
    t.hAt j = (s.hAt j).map (samplesH (sampled j k s)) := by
  induction k generalizing s with
  | zero =>
    cases h
    cases t.hAt j <;> rfl
  | succ k ih =>
    obtain ⟨u, hu⟩ := step_completes s
    rw [runEdges_succ hu] at h
    rw [ih h, step_hAt hu, sampled_succ hu]
    cases s.hAt j <;> rfl

end Sys2Proof.Machine
end

section
/-! PROOFS. R7: an instance's register after a run depends on its own register before and on its own samples only. Two runs
with the same samples at every edge, or with the same numbers in the two instances' columns, have equal lists of samples. -/

namespace Sys2Proof.Machine

/-- Two instances that hold the same `H` and have the same list of samples hold the same `H` after the run (R7). -/
theorem runEdges_hAt_eq_of_sampled_eq {k : Nat} {s s' : State} {j j' : Nat} {r : Word}
    (hr : s.hAt j = some r) (hr' : s'.hAt j' = some r) (hx : sampled j k s = sampled j' k s') :
    ∃ t t' q, runEdges k s = .next t ∧ runEdges k s' = .next t' ∧ t.hAt j = some q ∧ t'.hAt j' = some q := by
  obtain ⟨t, ht⟩ := runEdges_completes k s
  obtain ⟨t', ht'⟩ := runEdges_completes k s'
  refine ⟨t, t', samplesH (sampled j k s) r, ht, ht', ?_, ?_⟩
  · rw [runEdges_hAt ht, hr, Option.map_some]
  · rw [runEdges_hAt ht', hr', Option.map_some, hx]

/-- The list of samples is determined by the sample at each edge of the run. -/
theorem sampled_eq_of_sample_eq {k : Nat} {s s' : State} {j j' : Nat}
    (h : ∀ m u u', m < k → runEdges m s = .next u → runEdges m s' = .next u' → u.sample j = u'.sample j') :
    sampled j k s = sampled j' k s' := by
  induction k generalizing s s' with
  | zero => rfl
  | succ k ih =>
    obtain ⟨t, ht⟩ := step_completes s
    obtain ⟨t', ht'⟩ := step_completes s'
    have first : s.sample j = s'.sample j' := h 0 s s' k.succ_pos rfl rfl
    have rest : sampled j k t = sampled j' k t' := ih fun m u u' hm hu hu' =>
      h (m + 1) u u' (Nat.succ_lt_succ hm) ((runEdges_succ ht m).trans hu) ((runEdges_succ ht' m).trans hu')
    rw [sampled_succ ht, sampled_succ ht', first, rest]

/-- What is on an instance's ports at the coming edge is the first entry of its column, idle when there is none. -/
theorem portIn_eq_headD_column (s : State) (j : Nat) : s.portIn j = (column j s.inputs).headD .idle := by
  unfold State.portIn State.nextEdge
  cases s.inputs <;> rfl

/-- A step uses up the first entry of every column. -/
theorem step_column {s t : State} (h : step s = .next t) (j : Nat) :
    column j t.inputs = (column j s.inputs).tail := by
  rw [step_inputs h, column, column, List.map_tail]

/-- Where a column holds numbers only, its instance's coming argument is a number: an exhausted column is idle, which is a
number too (log entry 6). -/
theorem portIn_arg_value {s : State} {j : Nat} (hv : ∀ p ∈ column j s.inputs, ∃ v, p.arg = .value v) :
    ∃ v, (s.portIn j).arg = .value v := by
  rw [portIn_eq_headD_column]
  cases hc : column j s.inputs with
  | nil => exact ⟨0, rfl⟩
  | cons p ps => exact hv p (by simp [hc])

/-- Equal port values whose argument is a number are sampled alike, in whatever instance and system. -/
theorem sample_eq_of_portIn_eq {s s' : State} {j j' : Nat} {v : Arg} (hp : s.portIn j = s'.portIn j')
    (hv : (s.portIn j).arg = .value v) : s.sample j = s'.sample j' := by
  simp only [State.sample, ← hp, hv, State.sampleArg]

/-- Equal columns of numbers are sampled alike at every edge. -/
theorem sampled_eq_of_column_eq {s s' : State} {j j' : Nat} (hc : column j s.inputs = column j' s'.inputs)
    (hv : ∀ p ∈ column j s.inputs, ∃ v, p.arg = .value v) (k : Nat) : sampled j k s = sampled j' k s' := by
  induction k generalizing s s' with
  | zero => rfl
  | succ k ih =>
    obtain ⟨t, ht⟩ := step_completes s
    obtain ⟨t', ht'⟩ := step_completes s'
    have ports : s.portIn j = s'.portIn j' := by rw [portIn_eq_headD_column, portIn_eq_headD_column, hc]
    obtain ⟨v, hnum⟩ := portIn_arg_value hv
    have rest : sampled j k t = sampled j' k t' := by
      apply ih
      · rw [step_column ht, step_column ht', hc]
      · intro p hp
        rw [step_column ht] at hp
        exact hv p (List.mem_of_mem_tail hp)
    rw [sampled_succ ht, sampled_succ ht', sample_eq_of_portIn_eq ports hnum, rest]

/-- Settles O22: the register is a fold over the instance's own samples, and the samples are the same in the two runs, by
assumption in the first clause and because both columns are the same numbers in the second. -/
theorem anInstanceDependsOnItsOwnInputsOnly : Obligations.AnInstanceDependsOnItsOwnInputsOnly := by
  unfold Obligations.AnInstanceDependsOnItsOwnInputsOnly
  constructor
  · intro k s s' j j' r hr hr' hsame
    exact runEdges_hAt_eq_of_sampled_eq hr hr' (sampled_eq_of_sample_eq hsame)
  · intro k s s' j j' r hr hr' hcol hnum
    exact runEdges_hAt_eq_of_sampled_eq hr hr' (sampled_eq_of_column_eq hcol hnum k)

end Sys2Proof.Machine
end

section
/-! PROOFS. The state after reset (spec/10_state.md R11): the list of registers is the seed `n + 1` times. -/

namespace Sys2Proof.Machine

/-- After reset the registers, instance 0's among them, are one list of seeds. -/
theorem State.resetOf_accs (n : Nat) : (State.resetOf n).accs = List.replicate (n + 1) Config.seed :=
  List.replicate_succ.symm

theorem State.resetOf_hAt {n j : Nat} (hj : j ≤ n) : (State.resetOf n).hAt j = some Config.seed := by
  rw [State.hAt, State.resetOf_accs, List.getElem?_replicate_of_lt (Nat.lt_succ_of_le hj)]

/-- Writing back the value a register holds changes nothing. -/
@[simp] theorem State.writeH_self (s : State) : s.writeH s.h = s := rfl

/-- INIT does nothing where instance 0 holds the seed already (R51). -/
theorem exec_init_of_h_eq_seed {s : State} (hs : s.h = Config.seed) : exec .init s = .next s := by
  rw [exec, execInit, ← hs, State.writeH_self]

/-- Settles O24: every place of the list of seeds holds the seed, the output is its zero extension, and INIT writes the value
that is there. -/
theorem resetLeavesTheSeed : Obligations.ResetLeavesTheSeed := by
  unfold Obligations.ResetLeavesTheSeed
  have out : State.reset.hashOut 0 = some (hashOutOf Config.seed) := by
    rw [State.hashOut, State.reset, State.resetOf_hAt (Nat.le_refl 0), Option.map_some]
  have seeds (n j : Nat) (hj : j ≤ n) : (State.resetOf n).hAt j = some 0x00001505#32 := State.resetOf_hAt hj
  exact ⟨rfl, out, seeds, exec_init_of_h_eq_seed rfl⟩

end Sys2Proof.Machine
end

section
/-! PROOFS. The decoder in numbers (spec/30_encoding.md R31 to R34): the fields of a command word as quotient and remainders,
and `decode` once per opcode. -/

namespace Sys2Proof.Machine

theorem opField_toNat (cw : CommandWord) : (opField cw).toNat = cw.toNat / 2 ^ 64 := by
  have := cw.isLt
  rw [opField, BitVec.extractLsb'_toNat, Nat.shiftRight_eq_div_pow]
  omega

theorem loadOperand_argField (cw : CommandWord) :
    loadOperand (argField cw) = BitVec.ofNat 32 (cw.toNat % 2 ^ 32) := by
  apply BitVec.eq_of_toNat_eq
  rw [loadOperand_toNat, argField, BitVec.extractLsb'_toNat, Nat.shiftRight_zero, BitVec.toNat_ofNat]
  omega

theorem absorbOperand_argField (cw : CommandWord) :
    absorbOperand (argField cw) = BitVec.ofNat 8 (cw.toNat % 2 ^ 8) := by
  apply BitVec.eq_of_toNat_eq
  rw [absorbOperand_toNat, argField, BitVec.extractLsb'_toNat, Nat.shiftRight_zero, BitVec.toNat_ofNat]
  omega

theorem opField_eq_iff (cw : CommandWord) (o : Op) : opField cw = o ↔ cw.toNat / 2 ^ 64 = o.toNat := by
  rw [← opField_toNat, BitVec.toNat_inj]

/-- The decoder as R34 states it, by the number in bits 65:64 alone. -/
theorem decode_eq_by_opcode (cw : CommandWord) :
    decode cw =
      if cw.toNat / 2 ^ 64 = 0 then .nop
      else if cw.toNat / 2 ^ 64 = 1 then .init
      else if cw.toNat / 2 ^ 64 = 2 then .load (BitVec.ofNat 32 (cw.toNat % 2 ^ 32))
      else .absorb (BitVec.ofNat 8 (cw.toNat % 2 ^ 8)) := by
  simp only [decode, opField_eq_iff, loadOperand_argField, absorbOperand_argField]
  rfl

/-- Every command completes at every state (R34, R54). -/
theorem exec_completes (i : Instr) (s : State) : ∃ t, exec i s = .next t := by
  obtain ⟨v, hv⟩ := exec_writes i s
  exact ⟨s.writeH v, hv⟩

/-- Settles O3: the fields the decoder reads are the quotient and remainders of R34's rule, and every command writes `H`. -/
theorem everyCommandWordDecodesByItsOpcode : Obligations.EveryCommandWordDecodesByItsOpcode := by
  unfold Obligations.EveryCommandWordDecodesByItsOpcode
  exact fun cw => ⟨decode_eq_by_opcode cw, exec_completes (decode cw)⟩

end Sys2Proof.Machine
end

section
/-! PROOFS. R33: a decoded command determines the bits it uses and is determined by them. -/

namespace Sys2Proof.Machine

/-- The number of a command's opcode (R31). -/
def opcodeNumber : Instr → Nat
  | .nop => 0
  | .init => 1
  | .load _ => 2
  | .absorb _ => 3

/-- Two wires carry the opcode, so it is one of four numbers (R31). -/
theorem opcode_cases (cw : CommandWord) :
    cw.toNat / 2 ^ 64 = 0 ∨ cw.toNat / 2 ^ 64 = 1 ∨ cw.toNat / 2 ^ 64 = 2 ∨ cw.toNat / 2 ^ 64 = 3 := by
  have := cw.isLt
  omega

theorem decode_of_opcode_zero {cw : CommandWord} (h : cw.toNat / 2 ^ 64 = 0) : decode cw = .nop := by
  rw [decode_eq_by_opcode, h]
  rfl

theorem decode_of_opcode_one {cw : CommandWord} (h : cw.toNat / 2 ^ 64 = 1) : decode cw = .init := by
  rw [decode_eq_by_opcode, h]
  rfl

theorem decode_of_opcode_two {cw : CommandWord} (h : cw.toNat / 2 ^ 64 = 2) :
    decode cw = .load (BitVec.ofNat 32 (cw.toNat % 2 ^ 32)) := by
  rw [decode_eq_by_opcode, h]
  rfl

theorem decode_of_opcode_three {cw : CommandWord} (h : cw.toNat / 2 ^ 64 = 3) :
    decode cw = .absorb (BitVec.ofNat 8 (cw.toNat % 2 ^ 8)) := by
  rw [decode_eq_by_opcode, h]
  rfl

/-- The opcode bits can be read back from the decoded command. -/
theorem opcodeNumber_decode (cw : CommandWord) : opcodeNumber (decode cw) = cw.toNat / 2 ^ 64 := by
  obtain h | h | h | h := opcode_cases cw
  · rw [decode_of_opcode_zero h, h, opcodeNumber]
  · rw [decode_of_opcode_one h, h, opcodeNumber]
  · rw [decode_of_opcode_two h, h, opcodeNumber]
  · rw [decode_of_opcode_three h, h, opcodeNumber]

/-- An operand of `w` bits is the same exactly when the low `w` bits of the words are. -/
theorem ofNat_mod_two_pow_inj (w m n : Nat) :
    BitVec.ofNat w (m % 2 ^ w) = BitVec.ofNat w (n % 2 ^ w) ↔ m % 2 ^ w = n % 2 ^ w := by
  rw [← BitVec.toNat_inj, BitVec.toNat_ofNat, BitVec.toNat_ofNat, Nat.mod_mod, Nat.mod_mod]

/-- Words with equal opcode bits are the same command exactly when they agree on the operand of that opcode. -/
theorem decode_eq_iff_of_opcode_eq {cw cw' : CommandWord} (hop : cw.toNat / 2 ^ 64 = cw'.toNat / 2 ^ 64) :
    decode cw = decode cw' ↔
      (cw.toNat / 2 ^ 64 = 2 → cw.toNat % 2 ^ 32 = cw'.toNat % 2 ^ 32) ∧
      (cw.toNat / 2 ^ 64 = 3 → cw.toNat % 2 ^ 8 = cw'.toNat % 2 ^ 8) := by
  obtain h | h | h | h := opcode_cases cw
  · rw [decode_of_opcode_zero h, decode_of_opcode_zero (hop ▸ h), h]
    simp
  · rw [decode_of_opcode_one h, decode_of_opcode_one (hop ▸ h), h]
    simp
  · rw [decode_of_opcode_two h, decode_of_opcode_two (hop ▸ h), h, Instr.load.injEq, ofNat_mod_two_pow_inj]
    simp
  · rw [decode_of_opcode_three h, decode_of_opcode_three (hop ▸ h), h, Instr.absorb.injEq, ofNat_mod_two_pow_inj]
    simp

/-- Settles O4: equal commands have equal opcode bits, and under equal opcode bits only the operand's bits are left. -/
theorem ignoredBitsNeverMatter : Obligations.IgnoredBitsNeverMatter := by
  unfold Obligations.IgnoredBitsNeverMatter
  intro cw cw'
  constructor
  · intro hdec
    have hop : cw.toNat / 2 ^ 64 = cw'.toNat / 2 ^ 64 := by
      rw [← opcodeNumber_decode, hdec, opcodeNumber_decode]
    exact ⟨hop, (decode_eq_iff_of_opcode_eq hop).mp hdec⟩
  · rintro ⟨hop, hoperand⟩
    exact (decode_eq_iff_of_opcode_eq hop).mpr hoperand

end Sys2Proof.Machine
end

section
/-! PROOFS. R54: the step function of one instance, opcode by opcode on the values of its ports, and the output after it. -/

namespace Sys2Proof.Machine

/-- The decoder on port values (R30, R31). -/
@[simp] theorem decode_commandWord_nop (arg : Arg) : decode (commandWord opNop arg) = .nop := by
  rw [decode, opField_commandWord, if_pos rfl]

@[simp] theorem decode_commandWord_init (arg : Arg) : decode (commandWord opInit arg) = .init := by
  rw [decode, opField_commandWord]
  rfl

@[simp] theorem decode_commandWord_load (arg : Arg) :
    decode (commandWord opLoad arg) = .load (loadOperand arg) := by
  rw [decode, opField_commandWord, argField_commandWord]
  rfl

@[simp] theorem decode_commandWord_absorb (arg : Arg) :
    decode (commandWord opAbsorb arg) = .absorb (absorbOperand arg) := by
  rw [decode, opField_commandWord, argField_commandWord]
  rfl

/-- Two wires carry one of the four opcodes (R31). -/
theorem op_cases : ∀ op : Op, op = opNop ∨ op = opInit ∨ op = opLoad ∨ op = opAbsorb := by decide

/-- ABSORB from its argument (R53). -/
theorem mix_absorbOperand_toNat (r : Word) (arg : Arg) :
    (mix r (absorbOperand arg)).toNat = (65599 * r.toNat + arg.toNat % 2 ^ 8) % 2 ^ 32 := by
  rw [mix_toNat, absorbOperand_toNat]

/-- What an instance does with its port values is the spec's step function (R54). -/
theorem sampleH_toNat (rst : Bool) (op : Op) (arg : Arg) (r : Word) :
    (sampleH { rst := rst, cw := commandWord op arg } r).toNat = specStep rst op arg r := by
  cases rst with
  | true => rfl
  | false =>
    obtain rfl | rfl | rfl | rfl := op_cases op
    · simp only [sampleH, decode_commandWord_nop]
      rfl
    · simp only [sampleH, decode_commandWord_init]
      rfl
    · simp only [sampleH, decode_commandWord_load]
      exact loadOperand_toNat arg
    · simp only [sampleH, decode_commandWord_absorb]
      exact mix_absorbOperand_toNat r arg

theorem hashOutOf_eq_ofNat (r : Word) : hashOutOf r = BitVec.ofNat 64 r.toNat := (BitVec.ofNat_toNat 64 r).symm

/-- The output port of an instance that exists (R60). -/
theorem hashOut_of_hAt {s : State} {j : Nat} {r : Word} (h : s.hAt j = some r) :
    s.hashOut j = some (hashOutOf r) := by
  rw [State.hashOut, h, Option.map_some]

/-- Settles O17: the step maps `sampleH` over the registers, and `sampleH` of the sampled values is the spec's step function. -/
theorem stepIsTheStepFunctionOfEveryInstance : Obligations.StepIsTheStepFunctionOfEveryInstance := by
  unfold Obligations.StepIsTheStepFunctionOfEveryInstance
  intro s
  obtain ⟨t, ht⟩ := step_completes s
  refine ⟨t, ht, step_instances ht, step_inputs ht, fun j r hr => ?_⟩
  have after : t.hAt j = some (sampleH (s.sample j) r) := by rw [step_hAt ht, hr, Option.map_some]
  refine ⟨sampleH (s.sample j) r, after, sampleH_toNat _ _ _ _, ?_⟩
  rw [hashOut_of_hAt after, hashOutOf_eq_ofNat]

end Sys2Proof.Machine
end

section
/-! PROOFS. What each command writes (spec/41_commands.md R50 to R53): one equation per command, and from it the completion,
the frame and the corner cases of its rule. -/

namespace Sys2Proof.Machine

@[simp] theorem exec_nop (s : State) : exec .nop s = .next s := rfl
@[simp] theorem exec_init (s : State) : exec .init s = .next (s.writeH Config.seed) := rfl
@[simp] theorem exec_load (v : Word) (s : State) : exec (.load v) s = .next (s.writeH v) := rfl
@[simp] theorem exec_absorb (b : Byte) (s : State) : exec (.absorb b) s = .next (s.writeH (mix s.h b)) := rfl

@[simp] theorem State.hAt_zero (s : State) : s.hAt 0 = some s.h := rfl

/-- A write leaves the state as it was exactly when it writes the value that is there. -/
theorem State.writeH_eq_self_iff (s : State) (v : Word) : s.writeH v = s ↔ v = s.h := by
  refine ⟨congrArg State.h, ?_⟩
  rintro rfl
  exact s.writeH_self

/-- The zero byte multiplies by `K`, and `K - 1 = 65598` is twice an odd number: its fixed points are the multiples of 2^31
(R47). -/
theorem mix_zero_eq_self_iff (r : Word) : mix r 0 = r ↔ r = 0x00000000#32 ∨ r = 0x80000000#32 := by
  have := r.isLt
  have zero : (0 : Byte).toNat = 0 := rfl
  simp only [← BitVec.toNat_inj, mix_toNat, zero, BitVec.toNat_ofNat]
  omega

/-- Settles O14: ABSORB writes `mix`, whose value and whose fixed points at the zero byte are known. -/
theorem absorbMixesTheByteIn : Obligations.AbsorbMixesTheByteIn := by
  unfold Obligations.AbsorbMixesTheByteIn
  refine ⟨fun b s => ⟨_, exec_absorb b s, mix_toNat s.h b, rfl, rfl⟩, fun arg s => ?_, fun s => ?_⟩
  · exact ⟨_, congrArg (exec · s) (decode_commandWord_absorb arg), mix_absorbOperand_toNat s.h arg, rfl, rfl⟩
  · rw [exec_absorb, Host.Outcome.next.injEq, State.writeH_eq_self_iff, mix_zero_eq_self_iff]

/-- Settles O11: NOP answers the state it got, and a word with opcode 00 is NOP. -/
theorem nopHoldsTheState : Obligations.NopHoldsTheState := by
  unfold Obligations.NopHoldsTheState
  intro s
  refine ⟨exec_nop s, fun cw hop => ?_⟩
  rw [decode_of_opcode_zero hop, exec_nop]

/-- Settles O12: INIT, LOAD of the seed and reset all write the seed, and writing it again changes nothing. -/
theorem initLoadsTheSeed : Obligations.InitLoadsTheSeed := by
  unfold Obligations.InitLoadsTheSeed
  intro s
  have out : (s.writeH Config.seed).hashOut 0 = some (hashOutOf Config.seed) := hashOut_of_hAt (State.hAt_zero _)
  have again : exec .init (s.writeH Config.seed) = .next (s.writeH Config.seed) := exec_init_of_h_eq_seed rfl
  have anyArg (arg : Arg) : exec (decode (commandWord opInit arg)) s = .next (s.writeH Config.seed) := by
    rw [decode_commandWord_init, exec_init]
  exact ⟨_, exec_init s, rfl, rfl, rfl, out, again, exec_load _ s, fun _ => rfl, anyArg⟩

/-- LOAD from its argument (R52). -/
theorem exec_commandWord_load (arg : Arg) (s : State) :
    exec (decode (commandWord opLoad arg)) s = .next (s.writeH (loadOperand arg)) := by
  rw [decode_commandWord_load, exec_load]

/-- Settles O13: LOAD writes the low half of its argument, and the low half of an output is the register it came from. -/
theorem loadTakesTheLowHalfOfItsArgument : Obligations.LoadTakesTheLowHalfOfItsArgument := by
  unfold Obligations.LoadTakesTheLowHalfOfItsArgument
  refine ⟨fun v s => ⟨_, exec_load v s, rfl, rfl, rfl⟩, fun arg s => ?_, fun s u j out hout => ?_⟩
  · have low : (s.writeH (loadOperand arg)).hashOut 0 = some (BitVec.ofNat 64 (arg.toNat % 2 ^ 32)) := by
      rw [hashOut_of_hAt (State.hAt_zero _), State.writeH_h, hashOutOf_eq_ofNat, loadOperand_toNat]
    exact ⟨_, exec_commandWord_load arg s, loadOperand_toNat arg, rfl, rfl, low⟩
  · obtain ⟨r, hr, rfl⟩ := Option.map_eq_some_iff.mp hout
    refine ⟨s.writeH r, ?_, hr, ?_⟩
    · exact (exec_commandWord_load _ s).trans (by rw [loadOperand_hashOutOf])
    · rintro rfl rfl
      exact (State.writeH_eq_self_iff u r).mpr (Option.some.inj hr).symm

end Sys2Proof.Machine
end

section
/-! PROOFS. R60 and R63: the two halves of `hash_out`, and that an instance which loads an output, from the wire or as a number,
takes the register the output came from. -/

namespace Sys2Proof.Machine

/-- The low half of the output is the register (R60). -/
theorem hashOutOf_low_half (r : Word) : (hashOutOf r).extractLsb' 0 32 = r := loadOperand_hashOutOf r

/-- The high half of the output is zero (R60): the register stays below `2 ^ 32` when it is widened. -/
theorem hashOutOf_high_half (r : Word) : (hashOutOf r).extractLsb' 32 32 = 0 := by
  apply BitVec.eq_of_toNat_eq
  rw [BitVec.extractLsb'_toNat, hashOutOf_toNat, Nat.shiftRight_eq_div_pow, Nat.div_eq_of_lt r.isLt]
  rfl

/-- An instance with `rst = 0` and LOAD on its ports takes the low half of its argument (R52). -/
theorem sampleH_load (arg : Arg) (r : Word) :
    sampleH { rst := false, cw := commandWord opLoad arg } r = loadOperand arg := by
  simp [sampleH]

/-- The wire carries the output of before the edge (R63). -/
theorem sample_of_cloneFrom {s : State} {i j : Nat} {ri : Word} (hi : s.hAt i = some ri)
    (hp : s.portIn j = .cloneFrom i) : s.sample j = { rst := false, cw := commandWord opLoad (hashOutOf ri) } := by
  simp [State.sample, hp, PortIn.cloneFrom, State.sampleArg, hashOut_of_hAt hi]

theorem sample_of_load {s : State} {j : Nat} {v : Arg} (hp : s.portIn j = .load v) :
    s.sample j = { rst := false, cw := commandWord opLoad v } := by
  simp [State.sample, hp, PortIn.load, State.sampleArg]

/-- An instance that samples a LOAD of an output holds the register of that output after the edge. -/
theorem step_hAt_of_load_hashOutOf {s t : State} {j : Nat} {ri : Word} (ht : step s = .next t) (hj : s.hAt j ≠ none)
    (hx : s.sample j = { rst := false, cw := commandWord opLoad (hashOutOf ri) }) : t.hAt j = some ri := by
  obtain ⟨rj, hrj⟩ := Option.ne_none_iff_exists'.mp hj
  rw [step_hAt ht, hrj, hx, Option.map_some, sampleH_load, loadOperand_hashOutOf]

/-- Settles O30: wire and number are sampled as the same LOAD, taken from the state before the edge, and the source runs its own
sample at that edge. -/
theorem cloneCopiesThePreEdgeValue : Obligations.CloneCopiesThePreEdgeValue := by
  unfold Obligations.CloneCopiesThePreEdgeValue
  intro s i j ri rj hi hj hport
  have sampledLoad : s.sample j = { rst := false, cw := commandWord opLoad (hashOutOf ri) } := by
    obtain hwire | ⟨u, hu, hnumber⟩ := hport
    · exact sample_of_cloneFrom hi hwire
    · rw [hashOut_of_hAt hu, Option.map_some] at hnumber
      exact sample_of_load (Option.some.inj hnumber)
  obtain ⟨t, ht⟩ := step_completes s
  have source : t.hAt i = some (sampleH (s.sample i) ri) := by rw [step_hAt ht, hi, Option.map_some]
  exact ⟨t, ht, step_hAt_of_load_hashOutOf ht (by simp [hj]) sampledLoad, fun _ => ⟨_, source, sampleH_toNat _ _ _ _⟩⟩

/-- Settles O27: the output is `hashOutOf` of the register wherever the instance holds it. -/
theorem hashOutIsHZeroExtended : Obligations.HashOutIsHZeroExtended := by
  unfold Obligations.HashOutIsHZeroExtended
  intro s j r hr
  exact ⟨hashOutOf r, hashOut_of_hAt hr, hashOutOf_toNat r, hashOutOf_low_half r, hashOutOf_high_half r,
    fun _ hr' => hashOut_of_hAt hr'⟩

end Sys2Proof.Machine
end

section
/-! PROOFS. Streams of NOPs and ABSORBs (spec/43_sequences.md R70, R77): an instance that samples nothing else folds the bytes it
samples into its register, and where the host's column gives the bytes as numbers these are the column's bytes. -/

namespace Sys2Proof.Machine

@[simp] theorem absorbSeq_nil (r : Word) : absorbSeq r [] = r := rfl

@[simp] theorem absorbSeq_cons (r : Word) (b : Byte) (bs : List Byte) :
    absorbSeq r (b :: bs) = absorbSeq (mix r b) bs := rfl

/-- Absorbing a concatenation is absorbing its parts in turn (R74). -/
theorem absorbSeq_append (r : Word) (a b : List Byte) : absorbSeq r (a ++ b) = absorbSeq (absorbSeq r a) b := by
  induction a generalizing r with
  | nil => rfl
  | cons c cs ih => exact ih (mix r c)

theorem hashOf_append (a b : List Byte) : hashOf (a ++ b) = absorbSeq (hashOf a) b := absorbSeq_append _ a b

@[simp] theorem bytesSampled_nil : bytesSampled [] = [] := rfl

theorem bytesSampled_cons (x : Sample) (xs : List Sample) :
    bytesSampled (x :: xs) = x.byte?.toList ++ bytesSampled xs := by
  simp only [bytesSampled, List.filterMap_eq_flatMap_toList, List.flatMap_cons]

theorem bytesOf_cons (p : PortIn) (ps : List PortIn) : bytesOf (p :: ps) = p.byte?.toList ++ bytesOf ps := by
  simp only [bytesOf, List.filterMap_eq_flatMap_toList, List.flatMap_cons]

/-- A sampled NOP or ABSORB, one or no byte absorbed. -/
theorem sampleH_of_streams {x : Sample} (hx : x.streams = true) (r : Word) :
    sampleH x r = absorbSeq r x.byte?.toList := by
  obtain ⟨rst, cw⟩ := x
  cases rst with
  | true => cases hx
  | false =>
    cases hc : decode cw with
    | nop => simp [sampleH, Sample.byte?, hc]
    | absorb b => simp [sampleH, Sample.byte?, hc]
    | init => simp [Sample.streams, hc] at hx
    | load v => simp [Sample.streams, hc] at hx

/-- Sampled NOPs and ABSORBs fold their bytes into the register. -/
theorem samplesH_of_streams {xs : List Sample} (hxs : ∀ x ∈ xs, x.streams = true) (r : Word) :
    samplesH xs r = absorbSeq r (bytesSampled xs) := by
  induction xs generalizing r with
  | nil => rfl
  | cons x xs ih =>
    obtain ⟨hx, hrest⟩ := List.forall_mem_cons.mp hxs
    rw [samplesH_cons, sampleH_of_streams hx, ih hrest, bytesSampled_cons, absorbSeq_append]

/-- A run at which an instance samples NOPs and ABSORBs only (R77). -/
theorem runEdges_hAt_of_streams {k : Nat} {s t : State} {j : Nat} {r : Word} (ht : runEdges k s = .next t)
    (hr : s.hAt j = some r) (hs : ∀ x ∈ sampled j k s, x.streams = true) :
    t.hAt j = some (absorbSeq r (bytesSampled (sampled j k s))) := by
  rw [runEdges_hAt ht, hr, Option.map_some, samplesH_of_streams hs]

/-- The port values that stream: a NOP with any argument, or an ABSORB of a number. -/
theorem PortIn.streams_cases {p : PortIn} (hp : p.streams = true) :
    (∃ arg, p = { rst := false, op := opNop, arg := arg }) ∨
    ∃ v, p = { rst := false, op := opAbsorb, arg := .value v } := by
  obtain ⟨rst, op, arg⟩ := p
  cases arg with
  | value v => simpa [PortIn.streams, ← and_or_left] using hp
  | wired i => simpa [PortIn.streams] using hp

/-- Port values that stream are sampled as a NOP or an ABSORB of the byte they name. -/
theorem sample_of_portIn_streams {s : State} {j : Nat} (hp : (s.portIn j).streams = true) :
    (s.sample j).streams = true ∧ (s.sample j).byte? = (s.portIn j).byte? := by
  obtain ⟨arg, h⟩ | ⟨v, h⟩ := PortIn.streams_cases hp
  · have noByte : PortIn.byte? { rst := false, op := opNop, arg := arg } = none := by cases arg <;> rfl
    simp [State.sample, h, Sample.streams, Sample.byte?, noByte]
  · simp [State.sample, h, Sample.streams, Sample.byte?, PortIn.byte?, State.sampleArg]

theorem column_cons (j : Nat) (e : Edge) (es : List Edge) :
    column j (e :: es) = e.getD j .idle :: column j es := rfl

/-- What is on an instance's ports at the coming edge is that edge's entry for it. -/
theorem portIn_of_inputs_cons {s : State} {e : Edge} {es : List Edge} (hes : s.inputs = e :: es) (j : Nat) :
    s.portIn j = e.getD j .idle := by
  rw [portIn_eq_headD_column, hes, column_cons, List.headD_cons]

/-- Over the edges the host gives, a column that streams is sampled as NOPs and ABSORBs of the column's bytes (R77). -/
theorem sampled_of_column_streams {s : State} {j : Nat} {es : List Edge} (hes : s.inputs = es)
    (hp : ∀ p ∈ column j es, p.streams = true) :
    (∀ x ∈ sampled j es.length s, x.streams = true) ∧
      bytesSampled (sampled j es.length s) = bytesOf (column j es) := by
  induction es generalizing s with
  | nil => exact ⟨List.forall_mem_nil _, rfl⟩
  | cons e es ih =>
    rw [column_cons, ← portIn_of_inputs_cons hes j] at hp ⊢
    obtain ⟨hfirst, hrest⟩ := List.forall_mem_cons.mp hp
    obtain ⟨t, ht⟩ := step_completes s
    obtain ⟨streams, byte⟩ := sample_of_portIn_streams hfirst
    obtain ⟨restStreams, restBytes⟩ := ih (by rw [step_inputs ht, hes, List.tail_cons]) hrest
    rw [List.length_cons, sampled_succ ht]
    refine ⟨List.forall_mem_cons.mpr ⟨streams, restStreams⟩, ?_⟩
    rw [bytesSampled_cons, byte, restBytes, bytesOf_cons]

end Sys2Proof.Machine
end

section
/-! PROOFS. R64: after a clone edge both instances hold the hash of the bytes before it or an extension of it, and each folds in what it
samples from there on. -/

namespace Sys2Proof.Machine

/-- R64 for the values sampled: the source streams from the clone edge on, the copy after it. -/
theorem clones_continue_sampled {s : State} {i j : Nat} (k : Nat) {pre : List Byte} (hi : s.hAt i = some (hashOf pre))
    (hj : s.hAt j ≠ none) (hclone : s.portIn j = .cloneFrom i) (hxi : ∀ x ∈ sampled i (k + 1) s, x.streams = true)
    (hxj : ∀ x ∈ (sampled j (k + 1) s).tail, x.streams = true) :
    ∃ t, runEdges (k + 1) s = .next t ∧
      t.hAt i = some (hashOf (pre ++ bytesSampled (sampled i (k + 1) s))) ∧
      t.hAt j = some (hashOf (pre ++ bytesSampled (sampled j (k + 1) s).tail)) := by
  obtain ⟨u, hu⟩ := step_completes s
  obtain ⟨t, ht⟩ := runEdges_completes k u
  have run : runEdges (k + 1) s = .next t := (runEdges_succ hu k).trans ht
  have copy : u.hAt j = some (hashOf pre) := step_hAt_of_load_hashOutOf hu hj (sample_of_cloneFrom hi hclone)
  rw [sampled_succ hu j, List.tail_cons] at hxj ⊢
  rw [hashOf_append, hashOf_append]
  exact ⟨t, run, runEdges_hAt_of_streams run hi hxi, runEdges_hAt_of_streams ht copy hxj⟩

/-- R64 for the edges the host gives: their columns are what the two instances sample. -/
theorem clones_continue_given {s : State} {i j : Nat} {e : Edge} {es : List Edge} {pre : List Byte}
    (hi : s.hAt i = some (hashOf pre)) (hj : s.hAt j ≠ none) (hes : s.inputs = e :: es)
    (hclone : e.getD j .idle = .cloneFrom i) (hpi : ∀ p ∈ column i (e :: es), p.streams = true)
    (hpj : ∀ p ∈ column j es, p.streams = true) :
    ∃ t, runEdges (es.length + 1) s = .next t ∧
      t.hAt i = some (hashOf (pre ++ bytesOf (column i (e :: es)))) ∧
      t.hAt j = some (hashOf (pre ++ bytesOf (column j es))) := by
  obtain ⟨u, hu⟩ := step_completes s
  have port : s.portIn j = .cloneFrom i := (portIn_of_inputs_cons hes j).trans hclone
  obtain ⟨sourceStreams, sourceBytes⟩ := sampled_of_column_streams hes hpi
  obtain ⟨copyStreams, copyBytes⟩ := sampled_of_column_streams (by rw [step_inputs hu, hes, List.tail_cons]) hpj
  have tail : (sampled j (es.length + 1) s).tail = sampled j es.length u := by rw [sampled_succ hu, List.tail_cons]
  rw [← sourceBytes, ← copyBytes, ← tail]
  rw [← tail] at copyStreams
  exact clones_continue_sampled es.length hi hj port sourceStreams copyStreams

/-- Settles O31: the copy starts from the source's hash of before the clone edge, and both are folds over their own samples. -/
theorem clonesContinueIndependently : Obligations.ClonesContinueIndependently := by
  unfold Obligations.ClonesContinueIndependently
  constructor
  · intro s i j k pre _ hi hj hclone hxi hxj
    exact clones_continue_sampled k hi hj hclone hxi hxj
  · intro s i j e es pre _ hi hj hes hclone hpi hpj
    exact clones_continue_given hi hj hes hclone hpi hpj

end Sys2Proof.Machine
end

section
/-! PROOFS. R72 to R74 and R78: an action that first overwrites the register of its instance and then absorbs bytes leaves the fold of
the bytes from the value put in, so that HASH followed by HASHMORE from the output read is the HASH of both parts. -/

namespace Sys2Proof.Machine

/-- Samples that overwrite do so whatever the register held (R77). -/
theorem sampleH_of_overwrites {x : Sample} {v : Word} (hx : x.overwrites? = some v) (r : Word) : sampleH x r = v := by
  obtain ⟨rst, cw⟩ := x
  cases rst with
  | true => exact Option.some.inj hx
  | false =>
    cases hc : decode cw with
    | init => simpa [sampleH, Sample.overwrites?, hc] using hx
    | load w => simpa [sampleH, Sample.overwrites?, hc] using hx
    | nop => simp [Sample.overwrites?, hc] at hx
    | absorb b => simp [Sample.overwrites?, hc] at hx

/-- The port values that overwrite `H` with a value the host gives: a reset, an INIT, or a LOAD of a number. -/
theorem PortIn.overwrites_cases {p : PortIn} {v : Word} (hp : p.overwrites? = some v) :
    (p.rst = true ∧ v = Config.seed) ∨ (p.rst = false ∧ p.op = opInit ∧ v = Config.seed) ∨
    ∃ w, p = .load w ∧ v = loadOperand w := by
  obtain ⟨rst, op, arg⟩ := p
  cases rst with
  | true => exact .inl ⟨rfl, (Option.some.inj hp).symm⟩
  | false =>
    obtain rfl | rfl | rfl | rfl := op_cases op
    · cases hp
    · exact .inr (.inl ⟨rfl, rfl, (Option.some.inj hp).symm⟩)
    · cases arg with
      | value w => exact .inr (.inr ⟨w, rfl, (Option.some.inj hp).symm⟩)
      | wired i => cases hp
    · cases hp

/-- Port values that overwrite are sampled as values that overwrite with the same (R77). -/
theorem sample_of_portIn_overwrites {s : State} {j : Nat} {v : Word} (hp : (s.portIn j).overwrites? = some v) :
    (s.sample j).overwrites? = some v := by
  obtain ⟨hrst, rfl⟩ | ⟨hrst, hop, rfl⟩ | ⟨w, hload, rfl⟩ := PortIn.overwrites_cases hp
  · simp [Sample.overwrites?, State.sample, hrst]
  · simp [Sample.overwrites?, State.sample, hrst, hop]
  · simp [Sample.overwrites?, sample_of_load hload]

/-- The register after an edge at which the host overwrites it. -/
theorem step_hAt_of_portIn_overwrites {s t : State} {j : Nat} {v : Word} (ht : step s = .next t) (hj : s.hAt j ≠ none)
    (hp : (s.portIn j).overwrites? = some v) : t.hAt j = some v := by
  obtain ⟨r, hr⟩ := Option.ne_none_iff_exists'.mp hj
  rw [step_hAt ht, hr, Option.map_some, sampleH_of_overwrites (sample_of_portIn_overwrites hp)]

theorem PortIn.command_init : PortIn.command .init = { rst := false, op := opInit, arg := .value 0 } := by
  simp only [PortIn.command, encode, opField_commandWord, argField_commandWord]

theorem PortIn.command_absorb (b : Byte) :
    PortIn.command (.absorb b) = { rst := false, op := opAbsorb, arg := .value (b.setWidth 64) } := by
  simp only [PortIn.command, encode, opField_commandWord, argField_commandWord]

/-- A byte's canonical argument carries the byte (R32, R36). -/
theorem absorbOperand_setWidth (b : Byte) : absorbOperand (b.setWidth 64) = b := by
  apply BitVec.eq_of_toNat_eq
  have := b.isLt
  rw [absorbOperand_toNat, BitVec.toNat_setWidth]
  omega

theorem PortIn.overwrites_command_init : (PortIn.command .init).overwrites? = some Config.seed := by
  rw [PortIn.command_init]
  rfl

theorem PortIn.overwrites_load (imm : Arg) : (PortIn.load imm).overwrites? = some (loadOperand imm) := rfl

theorem PortIn.streams_command_absorb (b : Byte) : (PortIn.command (.absorb b)).streams = true := by
  rw [PortIn.command_absorb]
  rfl

theorem PortIn.byte_command_absorb (b : Byte) : (PortIn.command (.absorb b)).byte? = some b := by
  rw [PortIn.command_absorb]
  exact congrArg some (absorbOperand_setWidth b)

/-- The ABSORBs of a sequence feed exactly that sequence to their instance. -/
theorem bytesOf_map_command_absorb (data : List Byte) :
    bytesOf (data.map fun b => .command (.absorb b)) = data := by
  induction data with
  | nil => rfl
  | cons b bs ih => rw [List.map_cons, bytesOf_cons, PortIn.byte_command_absorb, ih, Option.toList_some, List.singleton_append]

theorem edgeFor_getD_self (j : Nat) (p : PortIn) : (edgeFor j p).getD j .idle = p := by
  simp [edgeFor]

/-- The edges given to one instance put their port values into its column. -/
theorem column_map_edgeFor (j : Nat) (ps : List PortIn) : column j (ps.map (edgeFor j)) = ps := by
  induction ps with
  | nil => rfl
  | cons p ps ih => rw [List.map_cons, column_cons, edgeFor_getD_self, ih]

/-- A run over the ABSORBs of a sequence folds it into the register (R70, R71). -/
theorem runEdges_absorbs {s : State} {j : Nat} {r : Word} (data : List Byte) (hr : s.hAt j = some r)
    (hin : s.inputs = HostAction.edges j (.write data)) :
    ∃ t, runEdges data.length s = .next t ∧ t.hAt j = some (absorbSeq r data) := by
  have absorbs : column j (HostAction.edges j (.write data)) = data.map fun b => .command (.absorb b) :=
    column_map_edgeFor j _
  have edgeCount : (HostAction.edges j (.write data)).length = data.length := by
    simp [HostAction.edges, HostAction.expand]
  have columnStreams : ∀ p ∈ column j (HostAction.edges j (.write data)), p.streams = true := by
    rw [absorbs]
    exact List.forall_mem_map.mpr fun b _ => PortIn.streams_command_absorb b
  obtain ⟨streams, bytes⟩ := sampled_of_column_streams hin columnStreams
  rw [edgeCount] at streams bytes
  rw [absorbs, bytesOf_map_command_absorb] at bytes
  obtain ⟨t, ht⟩ := runEdges_completes data.length s
  refine ⟨t, ht, ?_⟩
  rw [runEdges_hAt_of_streams ht hr streams, bytes]

/-- An edge that overwrites the register, then the ABSORBs of a sequence: the fold from the value put in (R72, R73). -/
theorem runEdges_overwrite_absorbs {s : State} {j : Nat} {p : PortIn} {v : Word} (data : List Byte) (hj : s.hAt j ≠ none)
    (hp : p.overwrites? = some v) :
    ∃ t, runEdges (data.length + 1) (s.given (edgeFor j p :: HostAction.edges j (.write data))) = .next t ∧
      t.hAt j = some (absorbSeq v data) := by
  obtain ⟨u, hu⟩ := step_completes (s.given (edgeFor j p :: HostAction.edges j (.write data)))
  have port : (s.given (edgeFor j p :: HostAction.edges j (.write data))).portIn j = p :=
    (portIn_of_inputs_cons rfl j).trans (edgeFor_getD_self j p)
  have start : u.hAt j = some v := step_hAt_of_portIn_overwrites hu hj (by rw [port, hp])
  rw [runEdges_succ hu]
  exact runEdges_absorbs data start (step_inputs hu)

/-- HASH leaves the hash of its bytes (R73). -/
theorem runEdges_hash {s : State} {j : Nat} (data : List Byte) (hj : s.hAt j ≠ none) :
    ∃ t, runEdges (data.length + 1) (s.given (HostAction.edges j (.hash data))) = .next t ∧
      t.hAt j = some (hashOf data) :=
  runEdges_overwrite_absorbs data hj PortIn.overwrites_command_init

/-- HASHMORE leaves the fold from the low half of its start argument (R72). -/
theorem runEdges_hashMore {s : State} {j : Nat} (start : Arg) (data : List Byte) (hj : s.hAt j ≠ none) :
    ∃ t, runEdges (data.length + 1) (s.given (HostAction.edges j (.hashMore start data))) = .next t ∧
      t.hAt j = some (absorbSeq (loadOperand start) data) :=
  runEdges_overwrite_absorbs data hj (PortIn.overwrites_load start)

/-- Settles O36: the fold composes over concatenation, and the low half of the output read is the hash of the first part. -/
theorem resumedHashIsTheWholeHash : Obligations.ResumedHashIsTheWholeHash := by
  unfold Obligations.ResumedHashIsTheWholeHash
  refine ⟨fun r a b => (absorbSeq_append r a b).symm, fun s u i j a b hi hj => ?_⟩
  obtain ⟨t, ht, hashed⟩ := runEdges_hash a hi
  obtain ⟨v, hv, resumed⟩ := runEdges_hashMore (hashOutOf (hashOf a)) b hj
  rw [loadOperand_hashOutOf, ← hashOf_append] at resumed
  exact ⟨t, hashOutOf (hashOf a), v, ht, hashOut_of_hAt hashed, rfl, hv, hashOut_of_hAt resumed⟩

end Sys2Proof.Machine
end

section
/-! PROOFS. R80: a run completes from every state. What it does to the inputs left and to the number of instances follows from
what one step does to them. -/

namespace Sys2Proof.Machine

/-- A run uses up one edge of input per step. -/
theorem runEdges_inputs {k : Nat} {s t : State} (h : runEdges k s = .next t) : t.inputs = s.inputs.drop k := by
  induction k generalizing s with
  | zero =>
    cases h
    rfl
  | succ k ih =>
    obtain ⟨u, hu⟩ := step_completes s
    rw [runEdges_succ hu] at h
    rw [ih h, step_inputs hu, List.drop_tail]

/-- A run neither makes nor removes an instance. -/
theorem runEdges_instances {k : Nat} {s t : State} (h : runEdges k s = .next t) : t.instances = s.instances := by
  induction k generalizing s with
  | zero =>
    cases h
    rfl
  | succ k ih =>
    obtain ⟨u, hu⟩ := step_completes s
    rw [runEdges_succ hu] at h
    exact (ih h).trans (step_instances hu)

/-- Settles O18: every step answers a next state, so every run does, and what a step does to the inputs and the instances
carries over to the run by induction on the number of edges. -/
theorem everyRunCompletes : Obligations.EveryRunCompletes := by
  unfold Obligations.EveryRunCompletes
  intro k s
  obtain ⟨t, ht⟩ := runEdges_completes k s
  exact ⟨t, ht, runEdges_inputs ht, runEdges_instances ht⟩

end Sys2Proof.Machine
end

section
/-! PROOFS. R90 and R91: a run completes the edges before an overwriting one and then holds the value put in, so that after
any length of reset an instance holds the seed, and its next command runs on it. -/

namespace Sys2Proof.Machine

/-- A run of `k + 1` edges is a run of `k` and one edge more. -/
theorem runEdges_succ_of_runEdges {k : Nat} {s u : State} (h : runEdges k s = .next u) :
    runEdges (k + 1) s = step u := by
  induction k generalizing s with
  | zero =>
    cases h
    obtain ⟨t, ht⟩ := step_completes u
    rw [runEdges_succ ht, ht, runEdges]
  | succ k ih =>
    obtain ⟨t, ht⟩ := step_completes s
    rw [runEdges_succ ht] at h ⊢
    exact ih h

/-- An instance that exists before a run exists after it. -/
theorem runEdges_hAt_ne_none {k : Nat} {s t : State} {j : Nat} (ht : runEdges k s = .next t) (hj : s.hAt j ≠ none) :
    t.hAt j ≠ none := by
  rw [runEdges_hAt ht]
  exact mt Option.map_eq_none_iff.mp hj

/-- After a run over the first edges of the input, the next one is what the ports carry. -/
theorem portIn_of_runEdges {s u : State} {before : List Edge} {e : Edge} {rest : List Edge}
    (hu : runEdges before.length s = .next u) (hin : s.inputs = before ++ e :: rest) (j : Nat) :
    u.portIn j = e.getD j .idle :=
  portIn_of_inputs_cons (by rw [runEdges_inputs hu, hin, List.drop_left]) j

/-- A run whose last edge overwrites the register leaves the value put in, whatever the edges before it did. -/
theorem runEdges_hAt_of_last_overwrites {s t : State} {j : Nat} {v : Word} {before : List Edge} {e : Edge}
    {rest : List Edge} (hj : s.hAt j ≠ none) (hin : s.inputs = before ++ e :: rest)
    (he : (e.getD j .idle).overwrites? = some v) (ht : runEdges (before.length + 1) s = .next t) :
    t.hAt j = some v := by
  obtain ⟨u, hu⟩ := runEdges_completes before.length s
  have last : step u = .next t := (runEdges_succ_of_runEdges hu).symm.trans ht
  exact step_hAt_of_portIn_overwrites last (runEdges_hAt_ne_none hu hj) (by rw [portIn_of_runEdges hu hin, he])

/-- Reset overwrites with the seed, whatever command stands beside it (R90). -/
theorem PortIn.overwrites_of_rst {p : PortIn} (h : p.rst = true) : p.overwrites? = some Config.seed := by
  rw [PortIn.overwrites?, if_pos h]

/-- One or more edges of reset leave the seed: the last of them does, whatever came before it. -/
theorem runEdges_hAt_of_resets {s t : State} {j : Nat} {resets rest : List Edge} (hj : s.hAt j ≠ none)
    (hne : resets ≠ []) (hin : s.inputs = resets ++ rest) (hrst : ∀ p ∈ column j resets, p.rst = true)
    (ht : runEdges resets.length s = .next t) : t.hAt j = some Config.seed := by
  obtain ⟨front, e, rfl⟩ := (List.eq_nil_or_concat' resets).resolve_left hne
  have lastResets : (e.getD j .idle).rst = true := hrst _ (List.mem_map_of_mem (by simp))
  rw [List.length_append, List.length_singleton] at ht
  rw [List.append_assoc, List.singleton_append] at hin
  exact runEdges_hAt_of_last_overwrites hj hin (PortIn.overwrites_of_rst lastResets) ht

/-- Settles O20: the last reset edge leaves the seed, and the edge after the resets is the next one on the ports, so the step
function takes its command, its argument sampled at that edge, and the seed. -/
theorem firstCommandAfterResetRunsOnTheSeed : Obligations.FirstCommandAfterResetRunsOnTheSeed := by
  unfold Obligations.FirstCommandAfterResetRunsOnTheSeed
  intro s j resets e es hj hne hin hrst hrun
  obtain ⟨t, ht⟩ := runEdges_completes resets.length s
  obtain ⟨u, hu⟩ := step_completes t
  have seeded : t.hAt j = some Config.seed := runEdges_hAt_of_resets hj hne hin hrst ht
  have after : u.hAt j = some (sampleH (t.sample j) Config.seed) := by rw [step_hAt hu, seeded, Option.map_some]
  refine ⟨t, u, _, ht, seeded, hu, after, ?_⟩
  rw [State.sample, sampleH_toNat, portIn_of_runEdges ht hin, hrun]
  rfl

/-- Settles O19: with `rst = 1` the instance takes the reset and the command is not executed; reset and INIT write the same
seed, which is also what the output then shows. -/
theorem resetWinsOverTheCommand : Obligations.ResetWinsOverTheCommand := by
  unfold Obligations.ResetWinsOverTheCommand
  constructor
  · intro s u cw
    exact ⟨s.takeReset, u.writeH Config.seed, if_pos rfl, exec_init u, rfl, rfl, rfl⟩
  · intro s j r hr hrst
    obtain ⟨t, ht⟩ := step_completes s
    have seeded : t.hAt j = some Config.seed :=
      step_hAt_of_portIn_overwrites ht (Option.ne_none_iff_exists'.mpr ⟨r, hr⟩) (PortIn.overwrites_of_rst hrst)
    exact ⟨t, ht, seeded, hashOut_of_hAt seeded⟩

end Sys2Proof.Machine
end

section
/-! PROOFS. R92: the registers at power-up are free values; what follows, a fold of bytes or an overwrite, is what it is from
every state. -/

namespace Sys2Proof.Machine

/-- At power-up the registers, instance 0's among them, are one list of free values. -/
theorem State.powerUp_accs (n : Nat) : (State.powerUp n).accs = (List.range (n + 1)).map Config.powerUpH := by
  rw [List.range_succ_eq_map, List.map_cons, List.map_map]
  rfl

theorem State.powerUp_hAt {n j : Nat} (hj : j ≤ n) : (State.powerUp n).hAt j = some (Config.powerUpH j) := by
  rw [State.hAt, State.powerUp_accs, List.getElem?_map, List.getElem?_range (Nat.lt_succ_of_le hj), Option.map_some]

/-- What the host gives is no register: it leaves the power-up values as they are. -/
theorem State.powerUp_given_hAt {n j : Nat} (hj : j ≤ n) (es : List Edge) :
    ((State.powerUp n).given es).hAt j = some (Config.powerUpH j) := State.powerUp_hAt hj

theorem State.powerUp_given_hAt_ne_none {n j : Nat} (hj : j ≤ n) (es : List Edge) :
    ((State.powerUp n).given es).hAt j ≠ none :=
  Option.ne_none_iff_exists'.mpr ⟨_, State.powerUp_given_hAt hj es⟩

/-- The register after an edge at which the instance samples an overwrite, from a number or a wire. -/
theorem step_hAt_of_sample_overwrites {s t : State} {j : Nat} {v : Word} (ht : step s = .next t) (hj : s.hAt j ≠ none)
    (hx : (s.sample j).overwrites? = some v) : t.hAt j = some v := by
  obtain ⟨r, hr⟩ := Option.ne_none_iff_exists'.mp hj
  rw [step_hAt ht, hr, Option.map_some, sampleH_of_overwrites hx]

/-- Over the edges the host gives, an instance whose column streams folds the column's bytes into its register (R77). -/
theorem runEdges_hAt_of_column_streams {s t : State} {j : Nat} {r : Word} {es : List Edge} (hr : s.hAt j = some r)
    (hes : s.inputs = es) (hp : ∀ p ∈ column j es, p.streams = true) (ht : runEdges es.length s = .next t) :
    t.hAt j = some (absorbSeq r (bytesOf (column j es))) := by
  obtain ⟨streams, bytes⟩ := sampled_of_column_streams hes hp
  rw [runEdges_hAt_of_streams ht hr streams, bytes]

/-- Settles O41: NOPs and ABSORBs fold their bytes into the power-up value, whatever it is, and an overwrite, given by the host
or sampled from a wire, leaves the value put in. -/
theorem powerUpValueLastsUntilOverwritten : Obligations.PowerUpValueLastsUntilOverwritten := by
  unfold Obligations.PowerUpValueLastsUntilOverwritten
  refine ⟨fun n j es hj hp => ?_, fun n j before e v hj he => ?_, fun n j k es u v hj hu hx => ?_⟩
  · obtain ⟨t, ht⟩ := runEdges_completes es.length ((State.powerUp n).given es)
    exact ⟨t, ht, runEdges_hAt_of_column_streams (State.powerUp_given_hAt hj es) rfl hp ht⟩
  · obtain ⟨t, ht⟩ := runEdges_completes (before.length + 1) ((State.powerUp n).given (before ++ [e]))
    exact ⟨t, ht, runEdges_hAt_of_last_overwrites (State.powerUp_given_hAt_ne_none hj _) rfl he ht⟩
  · obtain ⟨t, ht⟩ := step_completes u
    have alive : u.hAt j ≠ none := runEdges_hAt_ne_none hu (State.powerUp_given_hAt_ne_none hj es)
    exact ⟨t, ht, step_hAt_of_sample_overwrites ht alive hx⟩

end Sys2Proof.Machine
end

section
/-! PROOFS. R36: the canonical word of a command, its operand read back and its value as a number. -/

namespace Sys2Proof.Machine

/-- Settles O2: the decoder's equation for each opcode, with the operand that was widened to the argument read back from it. -/
theorem decodeOfEncodeIsTheCommand : Obligations.DecodeOfEncodeIsTheCommand := by
  unfold Obligations.DecodeOfEncodeIsTheCommand
  intro i
  cases i with
  | nop => exact ⟨decode_commandWord_nop 0, commandWord_toNat opNop 0⟩
  | init => exact ⟨decode_commandWord_init 0, commandWord_toNat opInit 0⟩
  | load s =>
    constructor
    · rw [encode, decode_commandWord_load, ← hashOutOf, loadOperand_hashOutOf]
    · rw [encode, commandWord_toNat, ← hashOutOf, hashOutOf_toNat]
      rfl
  | absorb b =>
    constructor
    · rw [encode, decode_commandWord_absorb, absorbOperand_setWidth]
    · rw [encode, commandWord_toNat, BitVec.toNat_setWidth_of_le (by decide)]
      rfl

end Sys2Proof.Machine
end

section
/-! PROOFS. The invariant of a well-driven system (spec/20_memory.md section 5): what the coming edge puts on any port comes from
a source that exists, and a step keeps that of the edges it leaves. -/

namespace Sys2Proof.Machine

/-- What a well-formed edge puts on any port is well formed: an entry of the edge, or idle past its end. -/
theorem Edge.wf_getD {n : Nat} {e : Edge} (he : Edge.wf n e = true) (j : Nat) : (e.getD j .idle).arg.wf n = true := by
  obtain ⟨-, hall⟩ := Bool.and_eq_true_iff.mp he
  by_cases hj : j < e.length
  · rw [List.getD_eq_getElem e _ hj]
    exact List.all_eq_true.mp hall _ (List.getElem_mem hj)
  · rw [List.getD_eq_default e _ (Nat.le_of_not_lt hj)]
    rfl

theorem State.Inv.portIn_arg_wf {n : Nat} {s : State} (h : s.Inv n) (j : Nat) : (s.portIn j).arg.wf n = true := by
  obtain ⟨-, hedges⟩ := h
  cases hes : s.inputs with
  | nil =>
    rw [portIn_eq_headD_column, hes]
    rfl
  | cons e es =>
    rw [portIn_of_inputs_cons hes]
    exact Edge.wf_getD (hedges e (by simp [hes])) j

theorem State.hAt_of_lt_instances {s : State} {i : Nat} (hi : i < s.instances) : ∃ r, s.hAt i = some r :=
  ⟨_, List.getElem?_eq_getElem hi⟩

theorem State.Inv.step {n : Nat} {s t : State} (h : s.Inv n) (ht : step s = .next t) : t.Inv n := by
  obtain ⟨hcount, hedges⟩ := h
  refine ⟨(step_instances ht).trans hcount, fun e he => hedges e ?_⟩
  rw [step_inputs ht] at he
  exact List.mem_of_mem_tail he

/-- Settles O26: the step keeps the instances and drops an edge, and a wire on a port of the coming edge comes from an instance
that exists, whose output it carries. -/
theorem stepKeepsTheSystemWellDriven : Obligations.StepKeepsTheSystemWellDriven := by
  unfold Obligations.StepKeepsTheSystemWellDriven
  refine fun n s hinv => ⟨fun t ht => hinv.step ht, fun j i hwire => ?_⟩
  have hi : i < n := by simpa [hwire, ArgSource.wf] using hinv.portIn_arg_wf j
  obtain ⟨count, -⟩ := hinv
  obtain ⟨r, hr⟩ := State.hAt_of_lt_instances (count.symm ▸ hi)
  exact ⟨r, hr, by rw [State.sampleArg, hashOut_of_hAt hr, Option.getD_some]⟩

/-- Settles O25: no edge is given at reset, so none drives what does not exist. -/
theorem wellDrivenAtReset : Obligations.WellDrivenAtReset := by
  unfold Obligations.WellDrivenAtReset
  intro n
  have count : (State.resetOf n).instances = n + 1 := by
    rw [State.instances, State.resetOf_accs, List.length_replicate]
  exact ⟨count, List.forall_mem_nil _⟩

end Sys2Proof.Machine
end

section
/-! PROOFS. The mixing datapath (spec/40_mixing_datapath.md R41 to R47): the forms of `mix`, its inverse for a fixed byte, and how
it depends on the byte. -/

namespace Sys2Proof.Machine

/-- A left shift of a word keeps its low bits and puts zeros below them. -/
theorem shiftLeft_eq_append_zeros {n : Nat} (r : Word) (hn : n < 32) :
    r <<< n = (r.extractLsb' 0 (32 - n) ++ 0#n).cast (by omega) :=
  BitVec.shiftLeft_eq_concat_of_lt hn

/-- The wide shift form is `65599 * r + b`, since `65599 = 2^16 + 2^6 - 1` (R41). -/
theorem wide_shift_form_eq (r b : Nat) : r * 2 ^ 16 + r * 2 ^ 6 - r + b = 65599 * r + b := by omega

/-- The shifts multiply by `2^16` and `2^6` modulo 2^32 (R42). -/
theorem shift_form_eq_mul (r : Word) : (r <<< 16) + (r <<< 6) - r = r * 0x0001003F#32 := by
  have shift16 : r <<< 16 = r * 0x00010000#32 := BitVec.shiftLeft_eq_mul_twoPow r 16
  have shift6 : r <<< 6 = r * 0x00000040#32 := BitVec.shiftLeft_eq_mul_twoPow r 6
  rw [shift16, shift6, ← BitVec.mul_add, BitVec.sub_eq_iff_eq_add]
  nth_rw 3 [← BitVec.mul_one r]
  rw [← BitVec.mul_add]
  rfl

/-- Settles O8: both shift forms and the multiplier form are the product by `K` and the byte added. -/
theorem datapathFormsAgree : Obligations.DatapathFormsAgree := by
  unfold Obligations.DatapathFormsAgree
  intro r b
  have hr := r.isLt
  have hb := b.isLt
  rw [wide_shift_form_eq, shift_form_eq_mul]
  refine ⟨by omega, by omega, mix_toNat r b, ?_, ?_, mix_eq_mul_add r b, mix_eq_mul_add r b⟩
  · exact shiftLeft_eq_append_zeros r (by decide)
  · exact shiftLeft_eq_append_zeros r (by decide)

theorem unmix_mix (r : Word) (b : Byte) : unmix (mix r b) b = r := by
  rw [unmix, mix_eq_mul_add, BitVec.add_sub_cancel, BitVec.mul_assoc]
  exact BitVec.mul_one r

theorem mix_unmix (r : Word) (b : Byte) : mix (unmix r b) b = r := by
  have inverse : (r - b.setWidth 32) * 0x8E7AEFBF#32 * 0x0001003F#32 = r - b.setWidth 32 := by
    rw [BitVec.mul_assoc]
    exact BitVec.mul_one _
  rw [mix_eq_mul_add, unmix, inverse, BitVec.sub_add_cancel]

/-- The fold of a byte sequence undone, the last byte first (R45). -/
def unabsorbSeq (r : Word) (data : List Byte) : Word := data.foldr (fun b q => unmix q b) r

theorem unabsorbSeq_absorbSeq (r : Word) (data : List Byte) : unabsorbSeq (absorbSeq r data) data = r := by
  induction data generalizing r with
  | nil => rfl
  | cons b bs ih =>
    rw [absorbSeq_cons, unabsorbSeq, List.foldr_cons, ← unabsorbSeq, ih, unmix_mix]

theorem absorbSeq_unabsorbSeq (r : Word) (data : List Byte) : absorbSeq (unabsorbSeq r data) data = r := by
  induction data with
  | nil => rfl
  | cons b bs ih => rw [absorbSeq_cons, unabsorbSeq, List.foldr_cons, ← unabsorbSeq, mix_unmix, ih]

/-- Settles O9: `unmix` is a two-sided inverse, so the fold of any byte sequence has one too. -/
theorem mixIsAPermutationOfTheStates : Obligations.MixIsAPermutationOfTheStates := by
  unfold Obligations.MixIsAPermutationOfTheStates
  refine ⟨by decide, fun r b => ⟨unmix_mix r b, mix_unmix r b⟩, fun r r' data heq => ?_⟩
  rw [← unabsorbSeq_absorbSeq r data, heq, unabsorbSeq_absorbSeq]

/-- Two bytes mixed into one state differ by the bytes' own difference (R46). -/
theorem mix_sub_mix_of_bytes (r : Word) (b c : Byte) :
    mix r b - mix r c = b.setWidth 32 - c.setWidth 32 := by
  rw [mix_eq_mul_add, mix_eq_mul_add, add_sub_add_left_eq_sub]

/-- A byte is the low part of its widening, so different bytes stay different. -/
theorem setWidth_byte_inj {b c : Byte} : (b.setWidth 32 : Word) = c.setWidth 32 ↔ b = c := by
  have widened (d : Byte) : (d.setWidth 32).toNat = d.toNat := BitVec.toNat_setWidth_of_le (by decide)
  rw [← BitVec.toNat_inj, ← BitVec.toNat_inj, widened, widened]

theorem mix_eq_mix_iff (r : Word) (b c : Byte) : mix r b = mix r c ↔ b = c := by
  rw [← sub_eq_zero, mix_sub_mix_of_bytes, sub_eq_zero, setWidth_byte_inj]

theorem mix_eq_mix_zero_add (r : Word) (b : Byte) : mix r b = mix r 0 + b.setWidth 32 := by
  rw [mix_eq_mul_add, mix_eq_mul_add r 0, show (0 : Byte).setWidth 32 = 0#32 from rfl, BitVec.add_zero]

/-- Settles O10: the byte is added to a product that does not depend on it. -/
theorem mixIsInjectiveInTheByte : Obligations.MixIsInjectiveInTheByte := by
  unfold Obligations.MixIsInjectiveInTheByte
  exact fun r b c => ⟨mix_eq_mix_iff r b c, mix_sub_mix_of_bytes r b c, mix_eq_mix_zero_add r b⟩

theorem mix_zero_state (b : Byte) : mix 0 b = b.setWidth 32 := by
  rw [mix_eq_mul_add]
  exact (congrArg (· + b.setWidth 32) BitVec.zero_mul).trans (BitVec.zero_add _)

/-- Settles O7: the table's rows computed, and the two rows that hold for every byte and for every state by their laws. -/
theorem mixSpecialValues : Obligations.MixSpecialValues := by
  unfold Obligations.MixSpecialValues
  exact ⟨by decide, by decide, mix_zero_state, by decide, by decide, by decide, by decide, by decide, by decide, by decide,
    by decide, mix_zero_eq_self_iff⟩

end Sys2Proof.Machine
end

section
/-! PROOFS. The fold of a byte sequence (spec/43_sequences.md R76, R79): its closed form, how it depends on the start state and on
one byte, and when a run of zero bytes is the identity. -/

namespace Sys2Proof.Machine

/-- By induction on the bytes: the first byte is multiplied by `K` once for each byte after it. -/
theorem absorbSeq_toNat (r : Word) (data : List Byte) :
    (absorbSeq r data).toNat = (r.toNat * 65599 ^ data.length + weightedBytes data) % 2 ^ 32 := by
  induction data generalizing r with
  | nil => simp [weightedBytes, Nat.mod_eq_of_lt r.isLt]
  | cons b bs ih =>
    have unreduced : (mix r b).toNat * 65599 ^ bs.length + weightedBytes bs ≡
        (65599 * r.toNat + b.toNat) * 65599 ^ bs.length + weightedBytes bs [MOD 2 ^ 32] := by
      rw [mix_toNat]
      exact ((Nat.mod_modEq _ _).mul_right _).add_right _
    have regrouped : (65599 * r.toNat + b.toNat) * 65599 ^ bs.length + weightedBytes bs =
        r.toNat * 65599 ^ (b :: bs).length + weightedBytes (b :: bs) := by
      rw [weightedBytes, List.length_cons]
      ring
    rw [absorbSeq_cons, ih, unreduced, regrouped]

/-- Settles O38: the closed form, and the two powers computed. -/
theorem hashMoreClosedForm : Obligations.HashMoreClosedForm := by
  unfold Obligations.HashMoreClosedForm
  exact ⟨absorbSeq_toNat, by norm_num, by norm_num⟩

/-- The difference of two states grows by a factor `K` with each byte (R79). -/
theorem absorbSeq_sub (r r' : Word) (data : List Byte) :
    absorbSeq r data - absorbSeq r' data = (r - r') * BitVec.ofNat 32 (65599 ^ data.length) := by
  induction data generalizing r r' with
  | nil => exact (BitVec.mul_one _).symm
  | cons b bs ih =>
    have scaled : mix r b - mix r' b = (r - r') * BitVec.ofNat 32 65599 := by
      rw [mix_eq_mul_add, mix_eq_mul_add, add_sub_add_right_eq_sub, ← sub_mul]
    rw [absorbSeq_cons, absorbSeq_cons, ih, scaled, BitVec.mul_assoc, ← BitVec.ofNat_mul, List.length_cons, Nat.pow_succ']

theorem absorbSeq_injective (data : List Byte) : Function.Injective fun r => absorbSeq r data :=
  Function.LeftInverse.injective (g := (unabsorbSeq · data)) fun r => unabsorbSeq_absorbSeq r data

theorem absorbSeq_bijective (data : List Byte) : Function.Bijective fun r => absorbSeq r data :=
  ⟨absorbSeq_injective data, Function.RightInverse.surjective fun r => absorbSeq_unabsorbSeq r data⟩

/-- One byte changed is the start state of the bytes after it changed. -/
theorem absorbSeq_append_cons (r : Word) (front back : List Byte) (b : Byte) :
    absorbSeq r (front ++ b :: back) = absorbSeq (mix (absorbSeq r front) b) back := absorbSeq_append r front (b :: back)

/-- Settles O40: the difference is carried through the bytes after it, each a bijection of the states. -/
theorem dependenceOnStartStateAndByte : Obligations.DependenceOnStartStateAndByte := by
  unfold Obligations.DependenceOnStartStateAndByte
  refine ⟨absorbSeq_sub, absorbSeq_bijective, fun r front back b c => ?_⟩
  rw [absorbSeq_append_cons, absorbSeq_append_cons]
  constructor
  · rw [absorbSeq_sub, mix_sub_mix_of_bytes]
  · exact fun hne heq => hne ((mix_eq_mix_iff _ b c).mp (absorbSeq_injective back heq))

/-- `K^2 - 1` is `2^7` times an odd number, so that the order of `K^2` modulo 2^32 is `2^25`. -/
theorem orderOf_multiplier_sq : orderOf ((65599 : ZMod (2 ^ (25 + 7))) ^ 2) = 2 ^ 25 := by
  have odd : ¬ (2 : ℤ) ∣ 33618975 := by decide
  have factored : (65599 : ZMod (2 ^ (25 + 7))) ^ 2 = 1 + (2 : ℕ) ^ 7 * (33618975 : ℤ) := by push_cast; norm_num
  rw [factored]
  exact ZMod.orderOf_one_add_mul_prime_pow Nat.prime_two 7 (by decide) (by decide) _ odd 25

theorem orderOf_multiplier : orderOf (65599 : ZMod (2 ^ (25 + 7))) = 2 ^ 26 := by
  have twice (n : ℕ) : (65599 : ZMod (2 ^ (25 + 7))) ^ 2 ^ (n + 1) = (65599 ^ 2) ^ 2 ^ n := by
    rw [← pow_mul, ← Nat.pow_succ']
  apply orderOf_eq_prime_pow
  · rw [twice]
    exact pow_ne_one_of_lt_orderOf (by decide) (by rw [orderOf_multiplier_sq]; decide)
  · rw [twice, ← orderOf_multiplier_sq, pow_orderOf_eq_one]

/-- The order of `K` as an order of remainders (R76). -/
theorem multiplier_pow_mod_eq_one_iff (n : Nat) : 65599 ^ n % 2 ^ 32 = 1 ↔ 2 ^ 26 ∣ n := by
  rw [← orderOf_multiplier, orderOf_dvd_iff_pow_eq_one]
  have cast := ZMod.natCast_eq_natCast_iff' (65599 ^ n) 1 (2 ^ (25 + 7))
  push_cast at cast
  exact cast.symm

theorem weightedBytes_zeros (n : Nat) : weightedBytes (List.replicate n 0#8) = 0 := by
  induction n with
  | zero => rfl
  | succ n ih => simp [List.replicate_succ, weightedBytes, ih]

/-- Zero bytes multiply by powers of `K`. -/
theorem absorbSeq_zeros_toNat (r : Word) (n : Nat) :
    (absorbSeq r (List.replicate n 0#8)).toNat = r.toNat * 65599 ^ n % 2 ^ 32 := by
  rw [absorbSeq_toNat, weightedBytes_zeros, List.length_replicate, Nat.add_zero]

/-- Settles O39: every state comes back exactly when the state 1 does, which is when the power of `K` is 1. -/
theorem zeroBytesReturnWithTheOrderOfK : Obligations.ZeroBytesReturnWithTheOrderOfK := by
  unfold Obligations.ZeroBytesReturnWithTheOrderOfK
  intro n
  rw [← multiplier_pow_mod_eq_one_iff]
  constructor
  · intro hall
    have one := congrArg BitVec.toNat (hall 1)
    rw [absorbSeq_zeros_toNat] at one
    exact (congrArg (· % 2 ^ 32) (Nat.one_mul _)).symm.trans one
  · intro hpow r
    apply BitVec.eq_of_toNat_eq
    rw [absorbSeq_zeros_toNat, Nat.mul_mod, hpow, Nat.mul_one, Nat.mod_mod, Nat.mod_eq_of_lt r.isLt]

end Sys2Proof.Machine
end

section
/-! PROOFS. The source's numeric examples (spec/95_test_vectors.md sections 1.1 and 1.3): the names' common stem is hashed once,
in two parts, and continued. -/

namespace Sys2Proof.Machine

/-- The hash of `org.apache.etch.example.` -/
theorem hashOf_package : hashOf
    [0x6F, 0x72, 0x67, 0x2E, 0x61, 0x70, 0x61, 0x63, 0x68, 0x65, 0x2E, 0x65, 0x74, 0x63, 0x68, 0x2E,
     0x65, 0x78, 0x61, 0x6D, 0x70, 0x6C, 0x65, 0x2E] = 0x6CCECE6D#32 := by decide

/-- The hash of `org.apache.etch.example.binary.binaryExample` -/
theorem hashOf_stem : hashOf
    [0x6F, 0x72, 0x67, 0x2E, 0x61, 0x70, 0x61, 0x63, 0x68, 0x65, 0x2E, 0x65, 0x74, 0x63, 0x68, 0x2E,
     0x65, 0x78, 0x61, 0x6D, 0x70, 0x6C, 0x65, 0x2E, 0x62, 0x69, 0x6E, 0x61, 0x72, 0x79, 0x2E, 0x62,
     0x69, 0x6E, 0x61, 0x72, 0x79, 0x45, 0x78, 0x61, 0x6D, 0x70, 0x6C, 0x65] = 0x16026369#32 := by
  have continued : absorbSeq 0x6CCECE6D#32
      [0x62, 0x69, 0x6E, 0x61, 0x72, 0x79, 0x2E, 0x62, 0x69, 0x6E, 0x61, 0x72, 0x79, 0x45, 0x78, 0x61, 0x6D, 0x70, 0x6C, 0x65] =
      0x16026369#32 := by decide
  rw [← continued, ← hashOf_package, ← hashOf_append]
  rfl

/-- Settles O42: the short examples computed, the three names from the hash of their stem (R74). -/
theorem sourceExampleValues : Obligations.SourceExampleValues := by
  unfold Obligations.SourceExampleValues
  intro stem
  have hstem : hashOf stem = 0x16026369#32 := hashOf_stem
  rw [hashOf_append, hashOf_append, hashOf_append, hstem]
  exact ⟨rfl, rfl, rfl, by decide, by decide, by decide, by decide, by decide, by decide, by decide, by decide, by decide,
    rfl⟩

end Sys2Proof.Machine
end

section
/-! PROOFS. An idle instance holds its register (spec/41_commands.md R50; log entry 6), and what follows for the step and for
runs: the frame of everything the host gives to one instance. -/

namespace Sys2Proof.Machine

/-- Two states are the same when every instance holds the same and the host has the same to give. -/
theorem State.ext_hAt {s t : State} (hregs : ∀ j, s.hAt j = t.hAt j) (hin : s.inputs = t.inputs) : s = t := by
  obtain ⟨h, others, inputs⟩ := s
  obtain ⟨h', others', inputs'⟩ := t
  obtain ⟨rfl, rfl⟩ : h = h' ∧ others = others' := List.cons.inj (List.ext_getElem? hregs)
  exact congrArg (State.mk h others) hin

theorem sampleH_of_portIn_idle {s : State} {j : Nat} (hp : s.portIn j = .idle) (r : Word) :
    sampleH (s.sample j) r = r := by
  simp [State.sample, hp, PortIn.idle, sampleH]

/-- An instance to which the host gives nothing at an edge holds its register. -/
theorem step_hAt_of_portIn_idle {s t : State} {j : Nat} (ht : step s = .next t) (hp : s.portIn j = .idle) :
    t.hAt j = s.hAt j := by
  rw [step_hAt ht]
  cases s.hAt j with
  | none => rfl
  | some r => rw [Option.map_some, sampleH_of_portIn_idle hp]

theorem portIn_of_column_idle {s : State} {j : Nat} (hp : ∀ p ∈ column j s.inputs, p = .idle) : s.portIn j = .idle := by
  rw [portIn_eq_headD_column]
  cases hc : column j s.inputs with
  | nil => rfl
  | cons p ps => exact hp p (by simp [hc])

/-- An instance to which the host gives nothing holds its register for any number of edges. -/
theorem runEdges_hAt_of_column_idle {k : Nat} {s t : State} {j : Nat} (ht : runEdges k s = .next t)
    (hp : ∀ p ∈ column j s.inputs, p = .idle) : t.hAt j = s.hAt j := by
  induction k generalizing s with
  | zero =>
    cases ht
    rfl
  | succ k ih =>
    obtain ⟨u, hu⟩ := step_completes s
    rw [runEdges_succ hu] at ht
    have rest : ∀ p ∈ column j u.inputs, p = .idle := fun p hpu =>
      hp p (List.mem_of_mem_tail (step_column hu j ▸ hpu))
    rw [ih ht rest, step_hAt_of_portIn_idle hu (portIn_of_column_idle hp)]

/-- Settles O21: without input every column is empty, so every instance holds, and no input is left to use up. -/
theorem idleEdgesHoldEveryRegister : Obligations.IdleEdgesHoldEveryRegister := by
  unfold Obligations.IdleEdgesHoldEveryRegister
  intro k s hin
  obtain ⟨t, ht⟩ := runEdges_completes k s
  have held (j : Nat) : t.hAt j = s.hAt j := runEdges_hAt_of_column_idle ht (by simp [hin, column])
  rw [ht, State.ext_hAt held (by rw [runEdges_inputs ht, hin, List.drop_nil])]

/-- The edge at which only instance `j` is given something leaves every other instance idle. -/
theorem edgeFor_getD_of_ne {j k : Nat} (hk : k ≠ j) (p : PortIn) : (edgeFor j p).getD k .idle = .idle := by
  obtain hlt | hgt := Nat.lt_or_gt_of_ne hk
  · simp [edgeFor, List.getD_eq_getElem?_getD, List.getElem?_append_left, hlt]
  · rw [List.getD_eq_default]
    simp [edgeFor]
    omega

theorem column_map_edgeFor_idle {j k : Nat} (hk : k ≠ j) (ps : List PortIn) :
    ∀ p ∈ column k (ps.map (edgeFor j)), p = .idle := by
  intro p hp
  obtain ⟨e, he, rfl⟩ := List.mem_map.mp hp
  obtain ⟨q, -, rfl⟩ := List.mem_map.mp he
  exact edgeFor_getD_of_ne hk q

/-- What the host gives to one instance changes no other instance, for any number of edges. -/
theorem runEdges_given_hAt_of_ne {n : Nat} {s t : State} {j k : Nat} {ps : List PortIn}
    (ht : runEdges n (s.given (ps.map (edgeFor j))) = .next t) (hk : k ≠ j) : t.hAt k = s.hAt k :=
  runEdges_hAt_of_column_idle (s := s.given (ps.map (edgeFor j))) ht (column_map_edgeFor_idle hk ps)

end Sys2Proof.Machine
end

section
/-! PROOFS. The frame of a command (R23), and the step as the presented command (R25, R94). -/

namespace Sys2Proof.Machine

@[simp] theorem State.hAt_succ (s : State) (j : Nat) : s.hAt (j + 1) = s.others[j]? := rfl

/-- A write of instance 0's register leaves every other instance as it was. -/
theorem State.writeH_hAt_of_ne_zero (s : State) (v : Word) {j : Nat} (hj : j ≠ 0) : (s.writeH v).hAt j = s.hAt j := by
  cases j with
  | zero => exact absurd rfl hj
  | succ j => rw [State.hAt_succ, State.hAt_succ, State.writeH_others]

/-- Settles O15: a command is a write of its register, and NOP answers the state it got. -/
theorem commandsWriteOnlyTheirRegister : Obligations.CommandsWriteOnlyTheirRegister := by
  unfold Obligations.CommandsWriteOnlyTheirRegister
  intro i s t ht
  have nop : i = .nop → t.h = s.h := by
    rintro rfl
    cases ht
    rfl
  obtain ⟨v, hv⟩ := exec_writes i s
  obtain rfl : s.writeH v = t := Host.Outcome.next.inj (hv.symm.trans ht)
  refine ⟨rfl, rfl, nop, fun j hj => ?_⟩
  have same := s.writeH_hAt_of_ne_zero v hj
  exact ⟨same, congrArg (Option.map hashOutOf) same⟩

/-- Without reset an instance executes the command it sampled, and the command writes what `sampleH` says (R54). -/
theorem exec_decode_eq (cw : CommandWord) (s : State) :
    exec (decode cw) s = .next (s.writeH (sampleH { rst := false, cw := cw } s.h)) :=
  runSample_eq { rst := false, cw := cw } s

/-- A step whose edge drives only instance 0, without reset, is the command at that edge. -/
theorem step_of_edge_for_first {s : State} {p : PortIn} {es : List Edge} (hin : s.inputs = [p] :: es) (hrst : p.rst = false) :
    step s = exec (decode (commandWord p.op (s.sampleArg 0 p.arg))) { s with inputs := es } := by
  obtain ⟨t, ht⟩ := step_completes s
  have first : s.sample 0 = { rst := false, cw := commandWord p.op (s.sampleArg 0 p.arg) } := by
    rw [State.sample, portIn_of_inputs_cons hin, List.getD_cons_zero, hrst]
  rw [ht, exec_decode_eq, ← first]
  refine congrArg _ (State.ext_hAt (fun j => ?_) (by rw [step_inputs ht, hin]; rfl))
  cases j with
  | zero => exact step_hAt ht 0
  | succ j =>
    have held := step_hAt_of_portIn_idle ht (portIn_of_inputs_cons hin (j + 1))
    exact held.trans (State.writeH_hAt_of_ne_zero { s with inputs := es } _ j.succ_ne_zero).symm

/-- A command word is its two fields, put together again (R30). -/
theorem commandWord_fields (cw : CommandWord) : commandWord (opField cw) (argField cw) = cw := by
  apply BitVec.eq_of_toNat_eq
  have arg : (argField cw).toNat = cw.toNat % 2 ^ 64 := by
    rw [argField, BitVec.extractLsb'_toNat, Nat.shiftRight_zero]
  rw [commandWord_toNat, opField_toNat, arg]
  exact Nat.div_add_mod' cw.toNat (2 ^ 64)

/-- Settles O16: the general clause is the step lemma for an edge that drives only instance 0, and a presented table word is such
an edge. -/
theorem stepRunsThePresentedCommand : Obligations.StepRunsThePresentedCommand := by
  unfold Obligations.StepRunsThePresentedCommand
  refine ⟨fun s nbits w i hi => ?_, fun s p es hin hrst => step_of_edge_for_first hin hrst⟩
  obtain rfl : decode (tableWord nbits w) = i := Option.some.inj hi
  have presented := step_of_edge_for_first (s := s.withFetchWord nbits w) (es := s.inputs) rfl rfl
  rwa [State.sampleArg, commandWord_fields] at presented

/-- What an instance does at an edge depends on its own ports and on the registers before the edge. -/
theorem sample_given_congr {s : State} {j : Nat} {e e' : Edge} (es : List Edge) (hj : e.getD j .idle = e'.getD j .idle) :
    (s.given (e :: es)).sample j = (s.given (e' :: es)).sample j := by
  have ports : (s.given (e :: es)).portIn j = (s.given (e' :: es)).portIn j := hj
  rw [State.sample, State.sample, ports]
  cases ((s.given (e' :: es)).portIn j).arg <;> rfl

/-- Settles O23: every other instance samples the same at both edges, a wire included, since the registers before the edge are
the same. -/
theorem aCommandChangesNoOtherInstance : Obligations.ACommandChangesNoOtherInstance := by
  unfold Obligations.ACommandChangesNoOtherInstance
  intro s i e e' es hsame
  obtain ⟨t, ht⟩ := step_completes (s.given (e :: es))
  obtain ⟨t', ht'⟩ := step_completes (s.given (e' :: es))
  refine ⟨t, t', ht, ht', fun j hj => ?_⟩
  rw [step_hAt ht, step_hAt ht', sample_given_congr es (hsame j hj)]
  rfl

/-- Settles O1: one evaluation of the decoder per opcode. -/
theorem decodesOneWordOfEachOpcode : Obligations.DecodesOneWordOfEachOpcode := by
  unfold Obligations.DecodesOneWordOfEachOpcode
  exact ⟨by decide, by decide, by decide, by decide⟩

/-- Settles O5: each action's one entry is its canonical port values, and a command word is the opcode above the argument. -/
theorem commandActionsDriveTheTablesWords : Obligations.CommandActionsDriveTheTablesWords := by
  unfold Obligations.CommandActionsDriveTheTablesWords
  refine ⟨fun imm => ⟨rfl, commandWord_toNat _ imm⟩, fun imm => ⟨?_, ?_⟩, ⟨rfl, by decide⟩, ⟨?_, by decide⟩⟩
  · rw [HostAction.expand, PortIn.command_absorb, BitVec.ofNat_toNat]
    rfl
  · rw [commandWord_toNat, BitVec.ofNat_toNat, BitVec.toNat_setWidth_of_le (by decide)]
    rfl
  · rw [HostAction.expand, PortIn.command_init]
    rfl

/-- Settles O32: an output is its register widened, and LOAD takes the low half of it. -/
theorem savedOutputRestoresAnInstance : Obligations.SavedOutputRestoresAnInstance := by
  unfold Obligations.SavedOutputRestoresAnInstance
  intro s u i j out hout hj hport
  obtain ⟨r, hr, rfl⟩ := Option.map_eq_some_iff.mp hout
  obtain ⟨t, ht⟩ := step_completes u
  have restored : t.hAt j = some r := step_hAt_of_load_hashOutOf ht hj (sample_of_load hport)
  exact ⟨t, ht, restored.trans hr.symm, hashOut_of_hAt restored⟩

end Sys2Proof.Machine
end

section
/-! PROOFS. WRITE, HASHMORE and HASH (spec/43_sequences.md R71 to R73): the edges they take, what they leave in their instance,
and that they leave every other instance as it was. -/

namespace Sys2Proof.Machine

@[simp] theorem HostAction.length_edges (j : Nat) (a : HostAction) : (HostAction.edges j a).length = a.expand.length :=
  List.length_map _

/-- Settles O33: the ABSORBs fold their bytes in, one edge each, and every other column is idle. -/
theorem writeFoldsTheBytesIn : Obligations.WriteFoldsTheBytesIn := by
  unfold Obligations.WriteFoldsTheBytesIn
  intro s j r data hr
  obtain ⟨t, ht, folded⟩ := runEdges_absorbs (s := s.given (HostAction.edges j (.write data))) data hr rfl
  have edgeCount : (HostAction.edges j (.write data)).length = data.length := by simp [HostAction.expand]
  refine ⟨edgeCount, t, ht, folded, fun k hk => runEdges_given_hAt_of_ne ht hk, ?_⟩
  rintro rfl
  exact folded

/-- LOAD's operand as a remainder (R32). -/
theorem loadOperand_eq_ofNat (arg : Arg) : loadOperand arg = BitVec.ofNat 32 (arg.toNat % 2 ^ 32) := by
  rw [← loadOperand_toNat, BitVec.ofNat_toNat, BitVec.setWidth_eq]

/-- Settles O34: the LOAD puts the low half of the start argument in, whatever was held, and the bytes are folded into it. -/
theorem hashMoreFoldsFromTheLoadedState : Obligations.HashMoreFoldsFromTheLoadedState := by
  unfold Obligations.HashMoreFoldsFromTheLoadedState
  intro s j start data hj
  obtain ⟨t, ht, folded⟩ := runEdges_hashMore start data hj
  rw [loadOperand_eq_ofNat] at folded
  have edgeCount : (HostAction.edges j (.hashMore start data)).length = data.length + 1 := by simp [HostAction.expand]
  exact ⟨edgeCount, t, ht, folded, hashOut_of_hAt folded, fun k hk => runEdges_given_hAt_of_ne ht hk⟩

/-- Settles O35: INIT and a reset edge both put the seed in, and the bytes are folded into it. -/
theorem hashFoldsFromTheSeed : Obligations.HashFoldsFromTheSeed := by
  unfold Obligations.HashFoldsFromTheSeed
  refine ⟨rfl, fun s j data hj => ?_⟩
  obtain ⟨t, ht, folded⟩ := runEdges_hash data hj
  obtain ⟨u, hu, refolded⟩ := runEdges_overwrite_absorbs data hj (PortIn.overwrites_of_rst (p := .reset) rfl)
  have edgeCount : (HostAction.edges j (.hash data)).length = data.length + 1 := by simp [HostAction.expand]
  refine ⟨edgeCount, t, u, ht, hu, folded, refolded, hashOut_of_hAt folded, fun k hk => ⟨?_, ?_⟩⟩
  · exact runEdges_given_hAt_of_ne ht hk
  · exact runEdges_given_hAt_of_ne (ps := .reset :: data.map fun b => .command (.absorb b)) hu hk

end Sys2Proof.Machine
end

section
/-! PROOFS. R77: what an instance holds after a run is what the last overwrite put in and the bytes after it. -/

namespace Sys2Proof.Machine

theorem samplesH_append (xs ys : List Sample) (r : Word) : samplesH (xs ++ ys) r = samplesH ys (samplesH xs r) :=
  List.foldl_append

/-- Samples before an overwrite do not matter (R77). -/
theorem samplesH_of_overwrites_streams {x : Sample} {v : Word} {after : List Sample} (hx : x.overwrites? = some v)
    (hafter : ∀ y ∈ after, y.streams = true) (before : List Sample) (r : Word) :
    samplesH (before ++ x :: after) r = absorbSeq v (bytesSampled after) := by
  rw [samplesH_append, samplesH_cons, sampleH_of_overwrites hx, samplesH_of_streams hafter]

/-- A run in two parts. -/
theorem runEdges_add {m : Nat} {s u : State} (hu : runEdges m s = .next u) (n : Nat) :
    runEdges (m + n) s = runEdges n u := by
  induction m generalizing s with
  | zero =>
    cases hu
    rw [Nat.zero_add]
  | succ m ih =>
    obtain ⟨w, hw⟩ := step_completes s
    rw [runEdges_succ hw] at hu
    rw [Nat.succ_add, runEdges_succ hw, ih hu]

/-- A run over all the input, whose edge `e` is sampled as an overwrite and after which the host's column streams (R77). -/
theorem runEdges_hAt_of_overwrites_column_streams {s u : State} {j : Nat} {v : Word} {before after : List Edge} {e : Edge}
    (hj : s.hAt j ≠ none) (hin : s.inputs = before ++ e :: after) (hu : runEdges before.length s = .next u)
    (hx : (u.sample j).overwrites? = some v) (hafter : ∀ p ∈ column j after, p.streams = true) :
    ∃ t, runEdges s.inputs.length s = .next t ∧ t.hAt j = some (absorbSeq v (bytesOf (column j after))) := by
  obtain ⟨w, hw⟩ := step_completes u
  obtain ⟨t, ht⟩ := runEdges_completes after.length w
  have start : w.hAt j = some v := step_hAt_of_sample_overwrites hw (runEdges_hAt_ne_none hu hj) hx
  have left : w.inputs = after := by rw [step_inputs hw, runEdges_inputs hu, hin, List.drop_left, List.tail_cons]
  refine ⟨t, ?_, runEdges_hAt_of_column_streams start left hafter ht⟩
  rw [hin, List.length_append, List.length_cons, runEdges_add hu, runEdges_succ hw, ht]

/-- A clone edge is sampled as an overwrite with the register of its source (R63, R77). -/
theorem sample_overwrites_of_cloneFrom {s : State} {i j : Nat} {r : Word} (hi : s.hAt i = some r)
    (hp : s.portIn j = .cloneFrom i) : (s.sample j).overwrites? = some r := by
  rw [sample_of_cloneFrom hi hp, Sample.overwrites?]
  simp [loadOperand_hashOutOf]

/-- Settles O37: clause by clause, the value the last overwrite puts in, sampled or given by the host, and the fold of the bytes
after it; without an overwrite, the fold from the start state. -/
theorem onlyWhatFollowsTheLastOverwriteMatters : Obligations.OnlyWhatFollowsTheLastOverwriteMatters := by
  unfold Obligations.OnlyWhatFollowsTheLastOverwriteMatters
  refine ⟨?sampledOverwrite, ?sampledStreams, ?givenOverwrite, ?givenClone, ?givenStreams⟩
  case sampledOverwrite =>
    intro s j k v before x after hj hsampled hx hafter
    obtain ⟨r, hr⟩ := Option.ne_none_iff_exists'.mp hj
    obtain ⟨t, ht⟩ := runEdges_completes k s
    exact ⟨t, ht, by rw [runEdges_hAt ht, hr, Option.map_some, hsampled, samplesH_of_overwrites_streams hx hafter]⟩
  case sampledStreams =>
    intro s j k r hr hstreams
    obtain ⟨t, ht⟩ := runEdges_completes k s
    exact ⟨t, ht, runEdges_hAt_of_streams ht hr hstreams⟩
  case givenOverwrite =>
    intro s j v before e after hj hin he hafter
    obtain ⟨u, hu⟩ := runEdges_completes before.length s
    have port := portIn_of_runEdges hu hin j
    exact runEdges_hAt_of_overwrites_column_streams hj hin hu (sample_of_portIn_overwrites (port ▸ he)) hafter
  case givenClone =>
    intro s u i j r before e after hj hin he hu hi hafter
    have port := (portIn_of_runEdges hu hin j).trans he
    exact runEdges_hAt_of_overwrites_column_streams hj hin hu (sample_overwrites_of_cloneFrom hi port) hafter
  case givenStreams =>
    intro s j r hr hstreams
    obtain ⟨t, ht⟩ := runEdges_completes s.inputs.length s
    exact ⟨t, ht, runEdges_hAt_of_column_streams hr rfl hstreams ht⟩

end Sys2Proof.Machine
end

section
/-! PROOFS. R61 and R62: reads take no edge and change nothing, and the outputs seen in the cycles of a run. -/

namespace Sys2Proof.Machine

/-- The program that drives the same edges and reads nothing ends in the same state (R61). -/
theorem hostRun_eq_without_reads (p : List HostStep) (s : State) :
    ∃ t reads, hostRun p s = .next (t, reads) ∧ hostRun ((edgesOf p).map .edge) s = .next (t, []) := by
  induction p generalizing s with
  | nil => exact ⟨s, [], rfl, rfl⟩
  | cons a p ih =>
    cases a with
    | edge e =>
      obtain ⟨u, hu⟩ := step_completes (s.present e)
      obtain ⟨t, reads, ht, bare⟩ := ih u
      exact ⟨t, reads, by simp only [hostRun, hu, ht], by
        simpa only [edgesOf, List.filterMap_cons, List.map_cons, hostRun, hu] using bare⟩
    | read j name =>
      obtain ⟨t, reads, ht, bare⟩ := ih s
      exact ⟨t, (name, s.hashOut j) :: reads, by simp only [hostRun, ht], bare⟩

theorem HostAction.edges_write_append (j : Nat) (a b : List Byte) :
    HostAction.edges j (.write (a ++ b)) = HostAction.edges j (.write a) ++ HostAction.edges j (.write b) := by
  simp only [HostAction.edges, HostAction.expand, List.map_append]

/-- The first bytes of a row of ABSORBs, whatever the host gives after them (R71). -/
theorem runEdges_absorbs_of_append {s : State} {j : Nat} {r : Word} {rest : List Edge} (data : List Byte)
    (hr : s.hAt j = some r) (hin : s.inputs = HostAction.edges j (.write data) ++ rest) :
    ∃ t, runEdges data.length s = .next t ∧ t.hAt j = some (absorbSeq r data) := by
  induction data generalizing s r with
  | nil => exact ⟨s, rfl, hr⟩
  | cons b bs ih =>
    obtain ⟨u, hu⟩ := step_completes s
    have port : s.portIn j = .command (.absorb b) := (portIn_of_inputs_cons hin j).trans (edgeFor_getD_self j _)
    obtain ⟨streams, byte⟩ := sample_of_portIn_streams (port ▸ PortIn.streams_command_absorb b)
    rw [port, PortIn.byte_command_absorb] at byte
    have mixed : u.hAt j = some (mix r b) := by
      rw [step_hAt hu, hr, Option.map_some, sampleH_of_streams streams, byte]
      rfl
    rw [List.length_cons, runEdges_succ hu]
    exact ih mixed (by rw [step_inputs hu, hin]; rfl)

/-- During a HASH the instance holds, after the `k`-th ABSORB, the hash of the first `k` bytes (R61). -/
theorem runEdges_hash_take {s : State} {j k : Nat} {data : List Byte} (hj : s.hAt j ≠ none) (hk : k ≤ data.length) :
    ∃ t, runEdges (k + 1) (s.given (HostAction.edges j (.hash data))) = .next t ∧ t.hAt j = some (hashOf (data.take k)) := by
  obtain ⟨u, hu⟩ := step_completes (s.given (HostAction.edges j (.hash data)))
  have port : (s.given (HostAction.edges j (.hash data))).portIn j = .command .init := edgeFor_getD_self j _
  have seeded : u.hAt j = some Config.seed :=
    step_hAt_of_portIn_overwrites hu hj (port ▸ PortIn.overwrites_command_init)
  have absorbs : u.inputs = HostAction.edges j (.write (data.take k)) ++ HostAction.edges j (.write (data.drop k)) := by
    rw [step_inputs hu, ← HostAction.edges_write_append, List.take_append_drop]
    rfl
  obtain ⟨t, ht, folded⟩ := runEdges_absorbs_of_append (data.take k) seeded absorbs
  rw [List.length_take_of_le hk] at ht
  exact ⟨t, (runEdges_succ hu k).trans ht, folded⟩

/-- Settles O28: both programs end as the one without reads does, and the output during a HASH is the hash of the
bytes absorbed so far. -/
theorem readingDoesNotMutate : Obligations.ReadingDoesNotMutate := by
  unfold Obligations.ReadingDoesNotMutate
  constructor
  · intro p q s hedges
    obtain ⟨t, reads, ht, bare⟩ := hostRun_eq_without_reads p s
    obtain ⟨t', reads', ht', bare'⟩ := hostRun_eq_without_reads q s
    rw [hedges, bare', Host.Outcome.next.injEq, Prod.mk.injEq] at bare
    obtain ⟨rfl, -⟩ := bare
    exact ⟨t', reads, reads', ht, ht'⟩
  · intro s j k data hj hk
    obtain ⟨t, ht, hashed⟩ := runEdges_hash_take hj hk
    exact ⟨t, ht, hashOut_of_hAt hashed⟩

theorem observe_succ {s t : State} (h : step s = .next t) (k : Nat) : observe (k + 1) s = s.outputs :: observe k t := by
  simp only [observe, h]

theorem State.outputs_getElem? (s : State) (j : Nat) : s.outputs[j]? = s.hashOut j := List.getElem?_map

theorem observe_length (k : Nat) (s : State) : (observe k s).length = k + 1 := by
  induction k generalizing s with
  | zero => rfl
  | succ k ih =>
    obtain ⟨t, ht⟩ := step_completes s
    rw [observe_succ ht, List.length_cons, ih]

/-- A cycle of a run is observed as the outputs of the state it is in. -/
theorem observe_getElem? {m k : Nat} (hm : m ≤ k) {s t : State} (ht : runEdges m s = .next t) :
    (observe k s)[m]? = some t.outputs := by
  induction m generalizing s k with
  | zero =>
    cases ht
    cases k with
    | zero => rfl
    | succ k =>
      obtain ⟨u, hu⟩ := step_completes t
      rw [observe_succ hu, List.getElem?_cons_zero]
  | succ m ih =>
    cases k with
    | zero => exact absurd hm (Nat.not_succ_le_zero m)
    | succ k =>
      obtain ⟨u, hu⟩ := step_completes s
      rw [runEdges_succ hu] at ht
      rw [observe_succ hu, List.getElem?_cons_succ, ih (Nat.le_of_succ_le_succ hm) ht]

/-- Settles O29: the list of outputs grows by one entry an edge, and entry `m` is that of the state after `m` edges. -/
theorem observationIsTheOutputOfEveryCycle : Obligations.ObservationIsTheOutputOfEveryCycle := by
  unfold Obligations.ObservationIsTheOutputOfEveryCycle
  intro k s
  refine ⟨observe_length k s, fun m hm => ?_⟩
  obtain ⟨t, ht⟩ := runEdges_completes m s
  exact ⟨t, t.outputs, ht, observe_getElem? hm ht, t.outputs_getElem?⟩

end Sys2Proof.Machine
end

section
/-! PROOFS. R36, `||`: the edge built from the port values of several instances, one instance at a time. -/

namespace Sys2Proof.Machine

/-- The edge is as long as it must be to hold every instance named. -/
theorem edgeLength_le_iff (ps : List (Nat × PortIn)) (n j : Nat) :
    ps.foldl (fun n p => max n (p.1 + 1)) n ≤ j ↔ n ≤ j ∧ ∀ p ∈ ps, p.1 < j := by
  induction ps generalizing n with
  | nil => simp
  | cons p ps ih => simp [ih, and_assoc]

/-- What the edge puts on an instance's ports is what the list gives it first, idle when it gives nothing. -/
theorem edgeOfAll_getD (ps : List (Nat × PortIn)) (j : Nat) :
    (edgeOfAll ps).getD j .idle = (ps.lookup j).getD .idle := by
  by_cases hj : ps.foldl (fun n p => max n (p.1 + 1)) 0 ≤ j
  · obtain ⟨-, hkeys⟩ := (edgeLength_le_iff ps 0 j).mp hj
    have absent : ps.lookup j = none :=
      List.lookup_eq_none_iff.mpr fun p hp => bne_iff_ne.mpr (Nat.ne_of_gt (hkeys p hp))
    rw [absent, List.getD_eq_default _ _ (by simpa [edgeOfAll] using hj), Option.getD_none]
  · rw [List.getD_eq_getElem?_getD, edgeOfAll, List.getElem?_map, List.getElem?_range (Nat.lt_of_not_le hj)]
    rfl

/-- Where the keys differ, a lookup finds every entry. -/
theorem lookup_eq_some_of_mem {ps : List (Nat × PortIn)} (hnodup : (ps.map Prod.fst).Nodup) {j : Nat} {p : PortIn}
    (hmem : (j, p) ∈ ps) : ps.lookup j = some p := by
  obtain ⟨front, back, rfl⟩ := List.append_of_mem hmem
  refine List.lookup_eq_some_iff.mpr ⟨front, back, rfl, fun q hq => bne_iff_ne.mpr ?_⟩
  rw [List.map_append, List.nodup_append] at hnodup
  obtain ⟨-, -, disjoint⟩ := hnodup
  exact (disjoint q.1 (List.mem_map_of_mem hq) j (by simp)).symm

theorem lookup_eq_none_of_not_mem {ps : List (Nat × PortIn)} {j : Nat} (hj : j ∉ ps.map Prod.fst) : ps.lookup j = none :=
  List.lookup_eq_none_iff.mpr fun _ hp => bne_iff_ne.mpr fun heq => hj (heq ▸ List.mem_map_of_mem hp)

/-- Settles O6: the edge is a lookup in the list, which finds each entry where the instances differ, and nothing elsewhere. -/
theorem linesOfOneEdgeReachTheirInstances : Obligations.LinesOfOneEdgeReachTheirInstances := by
  unfold Obligations.LinesOfOneEdgeReachTheirInstances
  refine fun ps hnodup => ⟨fun j p hmem => ?_, fun j hj => ?_⟩
  · rw [edgeOfAll_getD, lookup_eq_some_of_mem hnodup hmem, Option.getD_some]
  · rw [edgeOfAll_getD, lookup_eq_none_of_not_mem hj, Option.getD_none]

end Sys2Proof.Machine
end

section
/-! PROOFS. Numbers (spec/30_encoding.md R36): a text is read as a number exactly when it is a row of digits of its base, and the
number is the one those digits write. -/

namespace Sys2Proof.Machine

/-- The value of a character as a digit of a base, none where it is no digit of it. -/
def digitValue (base : Nat) (c : Char) : Option Nat := (digitSpellings.take base).findIdx? (·.contains c)

@[simp] theorem readDigits_nil (base v : Nat) : readDigits base v [] = some v := rfl

theorem readDigits_cons (base v : Nat) (c : Char) (cs : List Char) :
    readDigits base v (c :: cs) = (digitValue base c).bind fun d => readDigits base (base * v + d) cs := by
  rw [readDigits, digitValue]
  cases (digitSpellings.take base).findIdx? (·.contains c) <;> rfl

/-- The digits of a base as a type: each spelling is read as its value, and nothing else is read. -/
def SpellsDigits (base : Nat) {α : Type} (spell : α → Char) (value : α → Nat) : Prop :=
  ∀ c d, digitValue base c = some d ↔ ∃ a, spell a = c ∧ value a = d

/-- A row of characters is read as a number exactly when it is a row of digits, and then as the number they write. -/
theorem readDigits_eq_some_iff {base : Nat} {α : Type} {spell : α → Char} {value : α → Nat}
    (hspell : SpellsDigits base spell value) (v : Nat) (cs : List Char) (n : Nat) :
    readDigits base v cs = some n ↔
      ∃ digits : List α, cs = digits.map spell ∧ n = digits.foldl (fun before a => base * before + value a) v := by
  induction cs generalizing v with
  | nil => simp [eq_comm]
  | cons c cs ih =>
    rw [readDigits_cons, Option.bind_eq_some_iff]
    constructor
    · rintro ⟨d, hd, hrest⟩
      obtain ⟨a, rfl, rfl⟩ := (hspell c d).mp hd
      obtain ⟨digits, rfl, rfl⟩ := (ih _).mp hrest
      exact ⟨a :: digits, rfl, rfl⟩
    · rintro ⟨digits, hcs, rfl⟩
      cases digits with
      | nil => cases hcs
      | cons a digits =>
        obtain ⟨rfl, rfl⟩ := List.cons.inj hcs
        exact ⟨value a, (hspell _ _).mpr ⟨a, rfl, rfl⟩, (ih _).mpr ⟨digits, rfl, rfl⟩⟩

/-- A character read as a digit is one of that digit's spellings. -/
theorem mem_spellings_of_digitValue {base d : Nat} {c : Char} (h : digitValue base c = some d) :
    ∃ hd : d < (digitSpellings.take base).length, c ∈ (digitSpellings.take base)[d] := by
  obtain ⟨hd, hc, -⟩ := List.findIdx?_eq_some_iff_getElem.mp h
  exact ⟨hd, List.contains_iff_mem.mp hc⟩

/-- It is enough that every digit is read as its value, and that every spelling in the table is some digit's. -/
theorem spellsDigits_of_table {base : Nat} {α : Type} {spell : α → Char} {value : α → Nat}
    (hread : ∀ a, digitValue base (spell a) = some (value a))
    (hspelt : ∀ d : Fin (digitSpellings.take base).length, ∀ c ∈ (digitSpellings.take base)[d],
      ∃ a, spell a = c ∧ value a = d) :
    SpellsDigits base spell value := by
  intro c d
  constructor
  · intro h
    obtain ⟨hd, hc⟩ := mem_spellings_of_digitValue h
    exact hspelt ⟨d, hd⟩ c hc
  · rintro ⟨a, rfl, rfl⟩
    exact hread a

theorem decimal_spellsDigits : SpellsDigits 10 (fun d : Fin 10 => Nat.digitChar d.val) (fun d => d.val) := by
  have table : ∀ d : Fin 10, (digitSpellings.take 10)[d] = [Nat.digitChar d.val] := by decide
  refine spellsDigits_of_table (by decide) fun d c hc => ⟨d, ?_, rfl⟩
  exact (List.mem_singleton.mp (table d ▸ hc)).symm

/-- A hexadecimal digit is spelt in lower case, or, where the mark is set, in upper case. -/
def hexSpelling (d : Fin 16 × Bool) : Char :=
  if d.2 then (Nat.digitChar d.1.val).toUpper else Nat.digitChar d.1.val

theorem hexadecimal_spellsDigits : SpellsDigits 16 hexSpelling (fun d => d.1.val) := by
  have table : ∀ d : Fin 16, (digitSpellings.take 16)[d] ⊆ [hexSpelling (d, false), hexSpelling (d, true)] := by decide
  refine spellsDigits_of_table (by decide) fun d c hc => ?_
  obtain lower | upper := List.mem_pair.mp (table d hc)
  · exact ⟨(d, false), lower.symm, rfl⟩
  · exact ⟨(d, true), upper.symm, rfl⟩

/-- A nonempty row of digits, read from the start. -/
theorem readDigits_of_ne_nil_iff {base : Nat} {α : Type} {spell : α → Char} {value : α → Nat}
    (hspell : SpellsDigits base spell value) (cs : List Char) (n : Nat) :
    cs ≠ [] ∧ readDigits base 0 cs = some n ↔
      ∃ digits : List α, digits ≠ [] ∧ cs = digits.map spell ∧
        n = digits.foldl (fun before a => base * before + value a) 0 := by
  rw [readDigits_eq_some_iff hspell]
  constructor
  · rintro ⟨hne, digits, rfl, rfl⟩
    exact ⟨digits, mt List.map_eq_nil_iff.mpr hne, rfl, rfl⟩
  · rintro ⟨digits, hne, rfl, rfl⟩
    exact ⟨mt List.map_eq_nil_iff.mp hne, digits, rfl, rfl⟩

/-- A text that begins with the mark `0x` is hexadecimal, and no number without a digit after it. -/
theorem numberOf_marked_iff (ds : List Char) (n : Nat) :
    numberOf ('0' :: 'x' :: ds) = some n ↔ ds ≠ [] ∧ readDigits 16 0 ds = some n := by
  cases ds <;> simp [numberOf]

/-- Any other text is decimal, and no number when it is empty. -/
theorem numberOf_unmarked_iff {cs : List Char} (hmark : ¬ ∃ ds, cs = '0' :: 'x' :: ds) (n : Nat) :
    numberOf cs = some n ↔ cs ≠ [] ∧ readDigits 10 0 cs = some n := by
  unfold numberOf
  split
  · simp
  · exact absurd ⟨_, rfl⟩ hmark
  · exact absurd ⟨_, rfl⟩ hmark
  · next hne _ _ => exact (and_iff_right hne).symm

/-- The letter of the mark is no decimal digit. -/
theorem map_digitChar_ne_mark (digits : List (Fin 10)) (ds : List Char) :
    digits.map (fun d => Nat.digitChar d.val) ≠ '0' :: 'x' :: ds := by
  intro h
  have letter : 'x' ∈ digits.map (fun d => Nat.digitChar d.val) := by simp [h]
  obtain ⟨d, -, hd⟩ := List.mem_map.mp letter
  exact absurd hd ((by decide : ∀ d : Fin 10, Nat.digitChar d.val ≠ 'x') d)

/-- R36, "Numbers are decimal or `0x` hexadecimal": which texts are numbers, and which number each is. -/
theorem numberOf_eq_some_iff (text : List Char) (n : Nat) :
    numberOf text = some n ↔
      (∃ digits : List (Fin 10), digits ≠ [] ∧ text = digits.map (fun d => Nat.digitChar d.val) ∧
        n = digits.foldl (fun before d => 10 * before + d.val) 0) ∨
      ∃ digits : List (Fin 16 × Bool), digits ≠ [] ∧ text = "0x".toList ++ digits.map hexSpelling ∧
        n = digits.foldl (fun before d => 16 * before + d.1.val) 0 := by
  by_cases marked : ∃ ds, text = '0' :: 'x' :: ds
  · obtain ⟨ds, rfl⟩ := marked
    rw [numberOf_marked_iff, readDigits_of_ne_nil_iff hexadecimal_spellsDigits]
    constructor
    · rintro ⟨digits, hne, rfl, hn⟩
      exact .inr ⟨digits, hne, rfl, hn⟩
    · rintro (⟨digits, -, htext, -⟩ | ⟨digits, hne, htext, hn⟩)
      · exact absurd htext.symm (map_digitChar_ne_mark digits ds)
      · exact ⟨digits, hne, List.append_cancel_left (as := ['0', 'x']) htext, hn⟩
  · rw [numberOf_unmarked_iff marked, readDigits_of_ne_nil_iff decimal_spellsDigits]
    constructor
    · exact .inl
    · rintro (decimal | ⟨digits, -, htext, -⟩)
      · exact decimal
      · exact absurd ⟨_, htext⟩ marked

end Sys2Proof.Machine
end

section
/-! PROOFS. Command lines (spec/30_encoding.md R36; log entries 6 and 10): a line without `||` is one piece, its address names the
instance, and its mnemonic and operand name the action. -/

namespace Sys2Proof.Machine

theorem splitAtTok_of_not_mem {sep : Tok} {ts : List Tok} (h : sep ∉ ts) : splitAtTok sep ts = [ts] := by
  induction ts with
  | nil => rfl
  | cons t ts ih =>
    rw [splitAtTok, ih (List.not_mem_of_not_mem_cons h)]
    exact if_neg (List.ne_of_not_mem_cons h).symm

/-- A line without `||` is one piece. -/
theorem stepsOfLine_of_one_piece {ts : List Tok} (hne : ts ≠ []) (hbars : .bars ∉ ts) :
    stepsOfLine ts = (pieceOf ts).bind fun p => stepsOfPieces [p] := by
  rw [stepsOfLine, if_neg hne, splitAtTok_of_not_mem hbars]
  cases h : pieceOf ts <;> simp [h]

/-- The tokens in front of a command for instance `j`: `@j:`, or none for instance 0 (log entry 10). -/
def Addresses (address : List Tok) (j : Nat) : Prop :=
  (address = [] ∧ j = 0) ∨ ∃ index, numberOf index = some j ∧ address = [.atSign, .word index, .colon]

/-- The operand of a command line: none, a number, or a character literal. -/
def IsOperand (ops : List Tok) : Prop := ops = [] ∨ (∃ number, ops = [.word number]) ∨ ∃ b, ops = [.code b]

/-- The address gives the instance and the rest of the line the action. -/
theorem pieceOf_addressed {address ops : List Tok} {j : Nat} (haddr : Addresses address j) (hops : IsOperand ops)
    (m : List Char) : pieceOf (address ++ .word m :: ops) = (actionOf (.word m :: ops)).map fun a => (j, a) := by
  obtain ⟨rfl, rfl⟩ | ⟨index, hindex, rfl⟩ := haddr
  · obtain rfl | ⟨number, rfl⟩ | ⟨b, rfl⟩ := hops <;> rfl
  · exact congrArg (Option.bind · fun i => (actionOf (.word m :: ops)).map fun a => (i, a)) hindex

theorem bars_not_mem_line {address ops : List Tok} {j : Nat} (haddr : Addresses address j) (hops : IsOperand ops)
    (m : List Char) : .bars ∉ address ++ .word m :: ops := by
  obtain ⟨rfl, -⟩ | ⟨index, -, rfl⟩ := haddr <;> obtain rfl | ⟨number, rfl⟩ | ⟨b, rfl⟩ := hops <;> simp

/-- A command line for instance `j` is what its action asks of instance `j`. -/
theorem stepsOfLine_addressed {address ops : List Tok} {j : Nat} (haddr : Addresses address j) (hops : IsOperand ops)
    (m : List Char) :
    stepsOfLine (address ++ .word m :: ops) = (actionOf (.word m :: ops)).bind fun a => stepsOfPieces [(j, a)] := by
  rw [stepsOfLine_of_one_piece (by simp) (bars_not_mem_line haddr hops m), pieceOf_addressed haddr hops, Option.bind_map]
  rfl

theorem imm64Of_number {number : List Char} {n : Nat} (h : numberOf number = some n) :
    imm64Of (.word number) = if n < 2 ^ 64 then some (BitVec.ofNat 64 n) else none := by
  rw [imm64Of, h, Option.bind_some]

theorem imm8Of_number {number : List Char} {n : Nat} (h : numberOf number = some n) :
    imm8Of (.word number) = if n < 256 then some (BitVec.ofNat 8 n) else none := by
  rw [imm8Of, h, Option.bind_some]

theorem actionOf_load (t : Tok) :
    actionOf [.word "LOAD".toList, t] = (imm64Of t).map fun v => .act (.load v) := rfl

theorem actionOf_absorb (t : Tok) :
    actionOf [.word "ABSORB".toList, t] = (imm8Of t).map fun b => .act (.absorb b) := rfl

theorem stepsOfLine_load {address : List Tok} {j n : Nat} {number : List Char} (haddr : Addresses address j)
    (hn : numberOf number = some n) :
    stepsOfLine (address ++ [.word "LOAD".toList, .word number]) =
      if n < 2 ^ 64 then some [.edge (edgeFor j (.load (BitVec.ofNat 64 n)))] else none := by
  rw [stepsOfLine_addressed haddr (.inr (.inl ⟨number, rfl⟩)), actionOf_load, imm64Of_number hn]
  split <;> rfl

theorem stepsOfLine_absorb {address : List Tok} {j n : Nat} {number : List Char} (haddr : Addresses address j)
    (hn : numberOf number = some n) :
    stepsOfLine (address ++ [.word "ABSORB".toList, .word number]) =
      if n < 256 then some [.edge (edgeFor j (.command (.absorb (BitVec.ofNat 8 n))))] else none := by
  rw [stepsOfLine_addressed haddr (.inr (.inl ⟨number, rfl⟩)), actionOf_absorb, imm8Of_number hn]
  split <;> rfl

/-- Settles O43: a command line is one piece, its address and operand are read by the lemmas above, and the texts that are numbers
are the rows of decimal or marked hexadecimal digits. -/
theorem commandLinesAreReadAsTheirActions : Obligations.CommandLinesAreReadAsTheirActions := by
  unfold Obligations.CommandLinesAreReadAsTheirActions
  refine ⟨fun address j haddr => ?_, numberOf_eq_some_iff⟩
  refine ⟨stepsOfLine_addressed haddr (.inl rfl) _, stepsOfLine_addressed haddr (.inl rfl) _,
    fun number n hn => stepsOfLine_load haddr hn, fun number n hn => stepsOfLine_absorb haddr hn, fun b => ?_⟩
  exact stepsOfLine_addressed haddr (.inr (.inr ⟨b, rfl⟩)) _

end Sys2Proof.Machine
end
